-- ==== Sys2Proof/Word.lean ====
section
/-! DEFINITION. The word types of the core: every register, cell, operand byte and address has 8 bits (00_scope R5, R6). -/

namespace Sys2Proof

/-- A byte, unsigned, bit 7 the most significant (00_scope R5, R6). -/
abbrev Byte := BitVec 8

/-- The flags register's width, three bits (10_state R17). -/
abbrev Flags := BitVec 3

/-- A register index, 0 to 7 (10_state R11). -/
abbrev RegIndex := Fin 8

end Sys2Proof
end

