-- ==== Sys2Proof/Machine/Flags.lean ====
section
/-! DEFINITION. The ALU as a pure function of its operands, and the flag values it makes (42_alu R92 to R94, 10_state R17, R18). -/

namespace Sys2Proof.Machine

open Sys2Proof

/-- `L`, less than: bit 2 (10_state R17, R18). -/
def flagL : Flags := 0b100

/-- `G`, greater than: bit 1 (10_state R17, R18). -/
def flagG : Flags := 0b010

/-- `E`, equal: bit 0 (10_state R17, R18). -/
def flagE : Flags := 0b001

/-- The one flag bit the conditional jumps test, `E` = `FL[0]` (44_control_transfer R113, R114). -/
def equalSet (fl : Flags) : Bool := fl.getLsbD 0

/-- `alu_add` (42_alu R94): the exact sum, narrowed modulo 256. -/
def aluAdd (x y : Byte) : Byte := BitVec.ofNat 8 (x.toNat + y.toNat)

/-- `alu_mul` (42_alu R94): the exact product, narrowed modulo 256. -/
def aluMul (x y : Byte) : Byte := BitVec.ofNat 8 (x.toNat * y.toNat)

/-- `alu_cmp` (42_alu R92, R94): unsigned, tested in the order less, equal, greater; one bit set. -/
def aluCmp (x y : Byte) : Flags :=
  if x.toNat < y.toNat then flagL else if x.toNat = y.toNat then flagE else flagG

end Sys2Proof.Machine
end

