-- ==== Sys2Proof/Config.lean ====
section
/-! DEFINITION. The fixed sizes of the hardware and the types of the parameters the spec decides (00_scope R4).
The decided values stand in Machine/Parameters.lean and, for OPCODE_MAP, in Decode.lean. -/

namespace Sys2Proof

/-- MEM_SIZE: the number of memory cells (00_scope R4, 10_state R19). -/
def Config.memSize : Nat := 256

/-- SP_INDEX: the register PUSH and POP use implicitly (10_state R12). -/
def Config.spIndex : RegIndex := 7

/-- UNKNOWN_OPCODE: what an opcode byte outside the thirteen does (30_encoding R60, R61). -/
inductive UnknownOpcode where
  /-- Raise InvalidOpcode and change nothing else (R60, R131): the adopted value. -/
  | fault
  /-- Only the loop's PC update takes place, none when bit 4 is set (R61): described, not adopted. -/
  | legacyNop
  deriving DecidableEq, Repr

/-- REG_INDEX_CHECK: what a register operand byte above 7 does (30_encoding R56, decision D7). -/
inductive RegIndexCheck where
  /-- Raise InvalidRegister (R56, R132): the adopted value. -/
  | fault
  /-- Use the low three bits (decision D7's alternative): described, not adopted. -/
  | mask3
  deriving DecidableEq, Repr

end Sys2Proof
end

