-- ==== Sys2Proof/Syntax.lean ====
section
/-! DEFINITION. The thirteen instructions (30_encoding R58), with the raw operand bytes the handlers receive (R55). -/

namespace Sys2Proof

/-- One constructor per row of the opcode table. A register operand is the operand byte as fetched; whether it
names a register is R56's check (WellFormed.lean, Machine/Operands.lean), since a byte above 7 has a meaning of
its own, the exception InvalidRegister (log entry 18). -/
inductive Instr where
  /-- HLT (R85). -/
  | hlt
  /-- LDI r, v (R86). -/
  | ldi (r v : Byte)
  /-- PRN r (R87). -/
  | prn (r : Byte)
  /-- MUL a, b (R90). -/
  | mul (a b : Byte)
  /-- ADD a, b (R91). -/
  | add (a b : Byte)
  /-- CMP a, b (R92). -/
  | cmp (a b : Byte)
  /-- PUSH r (R100). -/
  | push (r : Byte)
  /-- POP r (R101). -/
  | pop (r : Byte)
  /-- CALL r (R110). -/
  | call (r : Byte)
  /-- RET (R111). -/
  | ret
  /-- JMP r (R112). -/
  | jmp (r : Byte)
  /-- JEQ r (R113). -/
  | jeq (r : Byte)
  /-- JNE r (R114). -/
  | jne (r : Byte)
  deriving DecidableEq, Repr

end Sys2Proof
end

