-- ==== Sys2Proof/WellFormed.lean ====
section
/-! DEFINITION. The check on an instruction: every register operand byte of its format is in 0..7 (30_encoding R54, R56). -/

namespace Sys2Proof

/-- A register operand byte names a register when bits 7 to 3 are 0 (30_encoding R54, R56). -/
abbrev namesRegister (b : Byte) : Prop := b.toNat ≤ 7

/-- The register operand bytes of an instruction, operand a first; LDI's second byte is an immediate and is never
checked (30_encoding R54, 41_control_data R86 corner case c). -/
def Instr.registerBytes : Instr → List Byte
  | .hlt => []
  | .ldi r _ => [r]
  | .prn r => [r]
  | .mul a b => [a, b]
  | .add a b => [a, b]
  | .cmp a b => [a, b]
  | .push r => [r]
  | .pop r => [r]
  | .call r => [r]
  | .ret => []
  | .jmp r => [r]
  | .jeq r => [r]
  | .jne r => [r]

/-- Every register operand byte names a register (30_encoding R56). -/
def Instr.wellFormed (i : Instr) : Bool := i.registerBytes.all fun b => decide (namesRegister b)

end Sys2Proof
end

