-- ==== Sys2Proof/Decode.lean ====
section
/-! DEFINITION. The opcode map, the fields of the opcode byte, the decoder, and after it the encoder (30_encoding). -/

namespace Sys2Proof

/-- The mnemonics of the opcode map, in the order of 30_encoding R58. -/
inductive Mnemonic where
  | hlt | ldi | prn | mul | add | cmp | push | pop | call | ret | jmp | jeq | jne
  deriving DecidableEq, Repr

/-- OPCODE_MAP (30_encoding R58, decision D1).
UNVERIFIED, unsafe: the byte values are the public LS-8 ones, which the spec takes from general knowledge (log entry 1). -/
def opcodeMap : Mnemonic → Byte
  | .hlt => 0b00000001
  | .ldi => 0b10000010
  | .prn => 0b01000111
  | .mul => 0b10100010
  | .add => 0b10100000
  | .cmp => 0b10100111
  | .push => 0b01000101
  | .pop => 0b01000110
  | .call => 0b01010000
  | .ret => 0b00010001
  | .jmp => 0b01010100
  | .jeq => 0b01010101
  | .jne => 0b01010110

/-- Every mnemonic, for the lookup by byte. -/
def allMnemonics : List Mnemonic :=
  [.hlt, .ldi, .prn, .mul, .add, .cmp, .push, .pop, .call, .ret, .jmp, .jeq, .jne]

/-- `op_size`, bits 7 to 6 of the opcode byte: the number of operand bytes (30_encoding R51). -/
def opSize (ir : Byte) : Nat := (ir >>> 6).toNat

/-- `sets_pc`, bit 4 of the opcode byte: the instruction writes PC itself (30_encoding R51). -/
def setsPc (ir : Byte) : Bool := ir.getLsbD 4

/-- Whole-byte dispatch: the mnemonic whose opcode byte is `ir` (30_encoding R53, 40_execution_loop R75). -/
def lookupOpcode (ir : Byte) : Option Mnemonic :=
  allMnemonics.find? fun m => opcodeMap m == ir

/-- The instruction a mnemonic makes of the two bytes after the opcode byte; bytes its format does not use are
ignored (30_encoding R54, R55). -/
def instrOf : Mnemonic → Byte → Byte → Instr
  | .hlt, _, _ => .hlt
  | .ldi, opa, opb => .ldi opa opb
  | .prn, opa, _ => .prn opa
  | .mul, opa, opb => .mul opa opb
  | .add, opa, opb => .add opa opb
  | .cmp, opa, opb => .cmp opa opb
  | .push, opa, _ => .push opa
  | .pop, opa, _ => .pop opa
  | .call, opa, _ => .call opa
  | .ret, _, _ => .ret
  | .jmp, opa, _ => .jmp opa
  | .jeq, opa, _ => .jeq opa
  | .jne, opa, _ => .jne opa

/-- Why bytes do not decode. -/
inductive DecodeError where
  /-- The opcode byte has no entry in OPCODE_MAP (30_encoding R60, 60_exceptions R131). -/
  | invalidOpcode (ir : Byte)
  deriving DecidableEq, Repr

/-- The instruction of the three fetched bytes, or the rejection by name (40_execution_loop R75). -/
def decode (ir opa opb : Byte) : Except DecodeError Instr :=
  match lookupOpcode ir with
  | some m => .ok (instrOf m opa opb)
  | none => .error (.invalidOpcode ir)

/-- The same on a run of bytes in ascending address order; bytes past the end of the list read as 0. -/
def decodeBytes (bs : List Byte) : Except DecodeError Instr :=
  decode (bs.getD 0 0) (bs.getD 1 0) (bs.getD 2 0)

/-- Byte `k` of an instruction's bits as the opcode table numbers them: bit 0 is the least significant bit of the
first byte, and bits at or above `nbits` are 0. -/
def tableByte (nbits w k : Nat) : Byte := BitVec.ofNat 8 ((w % 2 ^ nbits) >>> (8 * k))

/-- What the decoder reads from an instruction whose bits are `w` (the host's fixed name). -/
def decodeTableWord (nbits w : Nat) : Option Instr :=
  match decode (tableByte nbits w 0) (tableByte nbits w 1) (tableByte nbits w 2) with
  | .ok i => some i
  | .error _ => none

/-- The row of the opcode map an instruction belongs to. -/
def Instr.mnemonic : Instr → Mnemonic
  | .hlt => .hlt
  | .ldi _ _ => .ldi
  | .prn _ => .prn
  | .mul _ _ => .mul
  | .add _ _ => .add
  | .cmp _ _ => .cmp
  | .push _ => .push
  | .pop _ => .pop
  | .call _ => .call
  | .ret => .ret
  | .jmp _ => .jmp
  | .jeq _ => .jeq
  | .jne _ => .jne

/-- The operand bytes of an instruction in ascending address order (30_encoding R54, R63). -/
def Instr.operandBytes : Instr → List Byte
  | .hlt | .ret => []
  | .ldi r v => [r, v]
  | .mul a b | .add a b | .cmp a b => [a, b]
  | .prn r | .push r | .pop r | .call r | .jmp r | .jeq r | .jne r => [r]

/-- The bytes of an instruction: the opcode byte, then its operand bytes (30_encoding R50, R63). -/
def encode (i : Instr) : List Byte := opcodeMap i.mnemonic :: i.operandBytes

end Sys2Proof
end

