-- ==== Sys2Proof/Machine/Parameters.lean ====
section
/-! DEFINITION. The values the spec decides for the parameters of 00_scope R4 (OPCODE_MAP stands in Decode.lean). -/

namespace Sys2Proof

/-- PC_RESET (10_state R15). -/
def Config.pcReset : Byte := 0x00

/-- SP_RESET (10_state R13, conflict C1, decision D2).
UNVERIFIED, unsafe: the source's sentence also reads 244 (log entry 2). -/
def Config.spReset : Byte := 0xF3

/-- GPR_RESET, the reset value of R0 to R6 (10_state R29, decision D3).
UNVERIFIED, unsafe: the source gives none (log entry 3). -/
def Config.gprReset : Byte := 0x00

/-- FL_RESET (10_state R18, decision D4).
UNVERIFIED, unsafe: the source gives none (log entry 4). -/
def Config.flReset : Flags := 0b000

/-- LINK_RESET (10_state R22, decision D5).
UNVERIFIED, safe with D8's fault: the source gives no stored value (log entry 5). -/
def Config.linkReset : Option Byte := none

/-- UNKNOWN_OPCODE as adopted (30_encoding R60, decision D10; log entry 9). -/
def Config.unknownOpcode : UnknownOpcode := .fault

/-- REG_INDEX_CHECK as adopted (30_encoding R56, decision D7; log entry 7). -/
def Config.regIndexCheck : RegIndexCheck := .fault

end Sys2Proof
end

