-- ==== Sys2Proof/Machine/State.lean ====
section
/-! DEFINITION. The machine's state as plain data, why a step can stop, and the state after reset (10_state R10, R24, R25, R28). -/

namespace Sys2Proof.Machine

open Sys2Proof

/-- The 256 cells as (address, byte) pairs, addresses strictly rising, a cell that holds 0x00 left out
(`Memory.wf` in Ops.lean; log entry 13). -/
abbrev Memory := List Host.Cell

/-- Which register operand of an instruction a byte is: the byte at PC + 1 or the byte at PC + 2 (30_encoding R54). -/
inductive Operand where
  | a
  | b
  deriving DecidableEq, Repr

/-- The three synchronous faults of the core and what each records beside PC and `ir` (60_exceptions R130). -/
inductive FaultCause where
  /-- The opcode byte is not one of the thirteen (R131). -/
  | invalidOpcode
  /-- A register operand byte is above 7: the byte and which operand it is (R132). -/
  | invalidRegister (byte : Byte) (operand : Operand)
  /-- RET with no valid link (R133). -/
  | invalidReturn
  deriving DecidableEq, Repr

/-- The fault record the environment can read (60_exceptions R130, R134). -/
structure FaultRecord where
  cause : FaultCause
  /-- The address of the faulting instruction's opcode byte. -/
  pc : Byte
  /-- Its opcode byte. -/
  ir : Byte
  deriving DecidableEq, Repr

/-- The run states of 10_state R24 and 40_execution_loop R70. -/
inductive RunState where
  | running
  | halted
  | faulted
  deriving DecidableEq, Repr

/-- Everything the spec gives the machine (10_state R10, R24, R25). -/
structure State where
  /-- `M` (10_state R19). -/
  mem : Memory
  /-- `R[0..7]`, register 7 the stack pointer (10_state R11, R12). -/
  regs : Vector Byte 8
  /-- `PC` (10_state R14). -/
  pc : Byte
  /-- `FL`: bit 2 L, bit 1 G, bit 0 E (10_state R17, R18). -/
  fl : Flags
  /-- `LINK`: none, or some return address (10_state R21). -/
  link : Option Byte
  /-- `HALT` (10_state R23). -/
  halt : Bool
  /-- The fault record; the core is Faulted when it is there (10_state R24). -/
  fault : Option FaultRecord
  /-- `OUT`, oldest first (10_state R25). -/
  out : List Byte
  /-- DESIGN CHOICE, safe: whether Load(IMAGE) has followed the last reset (70_reset_and_hazards R151, R152; log entry 12). -/
  loaded : Bool
  deriving DecidableEq, Repr

/-- Why no step exists. None of them is an instruction's: the core's own three faults are next states (log entry 10). -/
inductive Fault where
  /-- `step` before Load(IMAGE): "no step may be taken" (70_reset_and_hazards R151). Safe. -/
  | notLoaded
  /-- `step` in Halted: "the core takes no step in either" (40_execution_loop R70). Safe. -/
  | halted
  /-- `step` in Faulted: "the core takes no step in either" (40_execution_loop R70). Safe. -/
  | faulted
  deriving DecidableEq, Repr

/-- What has no meaning in the model. -/
inductive Refusal where
  /-- An instruction with no meaning yet, raised by `exec`'s arm (no arm raises it now). Safe. -/
  | notModelled (mnemonic : String)
  /-- The event Load(IMAGE) when an image is already loaded, raised by `event`: Load "happens after reset and before
  the first step, and never during a run" (40_execution_loop R79; log entry 14). Safe. -/
  | loadOutOfOrder
  deriving DecidableEq, Repr

/-- What one step, or one meaning, answers. -/
abbrev Result := Host.Outcome State Fault Refusal

/-- The state after reset (10_state R28, 70_reset_and_hazards R150); memory lists nothing, and Load(IMAGE) has yet
to follow (R151, R152). -/
def State.reset : State where
  mem := []
  regs := #v[Config.gprReset, Config.gprReset, Config.gprReset, Config.gprReset,
    Config.gprReset, Config.gprReset, Config.gprReset, Config.spReset]
  pc := Config.pcReset
  fl := Config.flReset
  link := Config.linkReset
  halt := false
  fault := none
  out := []
  loaded := false

end Sys2Proof.Machine
end

