-- ==== Sys2Proof/Machine/Ops.lean ====
section
/-! DEFINITION. The named operations over memory and state, taking a fault, the loop's PC update, fetch, and the
load and reset of the environment. -/

namespace Sys2Proof.Machine

open Sys2Proof

/-! ### Memory -/

/-- What a cell that is not listed holds.
DESIGN CHOICE, unsafe where an image is not loaded in full: after Load every cell's value is IMAGE's, and the list
leaves out the cells that hold 0x00 (log entry 13). -/
def Memory.unlisted : Byte := 0x00

/-- The canonical form: addresses strictly rising and in the address space, no cell listed with the unlisted value. -/
abbrev Memory.wf (m : Memory) : Prop :=
  m.Pairwise (fun c d => c.1 < d.1) ∧ ∀ c ∈ m, c.1 < Config.memSize ∧ c.2 ≠ Memory.unlisted

/-- The byte listed for an address, or the unlisted value. -/
def Memory.lookup : Memory → Nat → Byte
  | [], _ => Memory.unlisted
  | c :: m, k => if c.1 = k then c.2 else Memory.lookup m k

/-- Drops an address from the list. -/
def Memory.erase (m : Memory) (k : Nat) : Memory := m.filter fun c => decide (c.1 ≠ k)

/-- Puts a cell before the first cell of a higher address. -/
def Memory.insertCell (k : Nat) (v : Byte) : Memory → Memory
  | [] => [(k, v)]
  | c :: m => if k < c.1 then (k, v) :: c :: m else c :: Memory.insertCell k v m

/-- `MemRead(a, 1)`: no fault, no side effect (20_memory R33). -/
def Memory.read (m : Memory) (a : Byte) : Byte := m.lookup a.toNat

/-- `MemWrite(a, 1, v)`: no fault, no other cell changes (20_memory R34); the canonical form is kept. -/
def Memory.write (m : Memory) (a v : Byte) : Memory :=
  if v = Memory.unlisted then m.erase a.toNat else Memory.insertCell a.toNat v (m.erase a.toNat)

/-- The memory in which cell `a` holds `image[a]` for every `a` (40_execution_loop R79). -/
def Memory.ofImage (image : Vector Byte 256) : Memory :=
  (List.finRange 256).filterMap fun a =>
    if image[a] = Memory.unlisted then none else some (a.val, image[a])

/-! ### State: one accessor and one update for each piece -/

/-- `R[i]` (10_state R11): no register is hard-wired. -/
def State.reg (s : State) (i : RegIndex) : Byte := s.regs[i]

/-- `R[i] <- v` (10_state R11). -/
def State.setReg (s : State) (i : RegIndex) (v : Byte) : State := { s with regs := s.regs.set i v }

/-- `M[a]` (20_memory R33). -/
def State.memRead (s : State) (a : Byte) : Byte := s.mem.read a

/-- `M[a] <- v` (20_memory R34). -/
def State.memWrite (s : State) (a v : Byte) : State := { s with mem := s.mem.write a v }

/-- `PC <- t` (10_state R14, R16). -/
def State.setPc (s : State) (t : Byte) : State := { s with pc := t }

/-- `FL <- f`, as a whole (10_state R18). -/
def State.setFl (s : State) (f : Flags) : State := { s with fl := f }

/-- `LINK <- l` (10_state R21). -/
def State.setLink (s : State) (l : Option Byte) : State := { s with link := l }

/-- `HALT <- 1` (10_state R23). -/
def State.setHalt (s : State) : State := { s with halt := true }

/-- `Emit(v)`: appends to OUT, never blocks, never fails (40_execution_loop R81). -/
def State.emit (s : State) (v : Byte) : State := { s with out := s.out ++ [v] }

/-- The run state (10_state R24). DESIGN CHOICE, safe: computed, the fault record taking precedence in the states no
run reaches in which HALT is 1 as well (log entry 15). -/
def State.runState (s : State) : RunState :=
  if s.fault.isSome then .faulted else if s.halt then .halted else .running

/-! ### Faults -/

/-- The code of a fault (60_exceptions R130). -/
def FaultCause.code : FaultCause → Nat
  | .invalidOpcode => 1
  | .invalidRegister _ _ => 2
  | .invalidReturn => 3

/-- Taking a fault (60_exceptions R134): nothing architectural changes, the PC stays on the faulting instruction, and
the record is set, which makes the run state Faulted. There is no return from it but reset (R135). -/
def State.raise (s : State) (cause : FaultCause) (ir : Byte) : State :=
  { s with fault := some { cause := cause, pc := s.pc, ir := ir } }

/-! ### The common parts of a step -/

/-- The loop's PC update, by the fields of the opcode byte (40_execution_loop R76). -/
def State.loopUpdate (s : State) (ir : Byte) : State :=
  if setsPc ir then s else s.setPc (s.pc + BitVec.ofNat 8 (opSize ir + 1))

/-- The end of a handler that raised nothing: the loop's PC update of the mnemonic's opcode byte (40_execution_loop R76). -/
def finish (m : Mnemonic) (s : State) : Result := .next (s.loopUpdate (opcodeMap m))

/-- The `k`-th byte fetched at the PC, its address modulo 256 (20_memory R31, R32, 40_execution_loop R73). -/
def State.fetchByte (s : State) (k : Byte) : Byte := s.memRead (s.pc + k)

/-- Fetch and decode: the three bytes are read whatever the instruction (40_execution_loop R73 to R75). -/
def State.fetchDecode (s : State) : Except DecodeError Instr :=
  decode (s.fetchByte 0) (s.fetchByte 1) (s.fetchByte 2)

/-- A fetched byte that is no opcode, under a policy (30_encoding R60 and R61, 60_exceptions R131). -/
def State.undefinedOpcode (s : State) (ir : Byte) : UnknownOpcode → State
  | .fault => s.raise .invalidOpcode ir
  | .legacyNop => s.loopUpdate ir

/-- The step whose bytes do not decode (40_execution_loop R75, R77). -/
def rejectOpcode (e : DecodeError) (s : State) : Result :=
  match e with
  | .invalidOpcode ir => .next (s.undefinedOpcode ir Config.unknownOpcode)

/-- Why no step exists in a state, if none does: before Load (70_reset_and_hazards R151), in Halted and in Faulted
(40_execution_loop R70). -/
def State.noStep (s : State) : Option Fault :=
  match s.runState with
  | .faulted => some .faulted
  | .halted => some .halted
  | .running => if s.loaded then none else some .notLoaded

/-! ### The environment -/

/-- The event Load(IMAGE) (40_execution_loop R79). -/
def State.loadImage (s : State) (image : Vector Byte 256) : State :=
  { s with mem := Memory.ofImage image, loaded := true }

/-- The event Reset: the reset values in every register; memory is not touched, and Load is due again
(70_reset_and_hazards R150 to R152). -/
def State.resetEvent (s : State) : State := { State.reset with mem := s.mem }

/-- The instruction of table bits `w` stored at the PC, as `withFetchWord` needs it (log entry 25). -/
def State.placeWord (s : State) (nbits w : Nat) : State :=
  ((s.memWrite s.pc (tableByte nbits w 0)).memWrite (s.pc + 1) (tableByte nbits w 1)).memWrite
    (s.pc + 2) (tableByte nbits w 2)

end Sys2Proof.Machine
end

