-- ==== Sys2Proof/Machine/Operands.lean ====
section
/-! DEFINITION. The operand forms: a register operand byte (30_encoding R56) and the two implicit stack addresses (43_stack R106). -/

namespace Sys2Proof.Machine

open Sys2Proof

/-- `reg(b)`: the register an operand byte names under a policy, none where it raises InvalidRegister
(30_encoding R56, decision D7). -/
def regIndex (policy : RegIndexCheck) (b : Byte) : Option RegIndex :=
  match policy with
  | .fault => if h : b.toNat < 8 then some ⟨b.toNat, h⟩ else none
  | .mask3 => some ⟨b.toNat % 8, Nat.mod_lt _ (by decide)⟩

/-- A register operand: its check comes before any effect, and a byte that names no register takes InvalidRegister
(40_execution_loop R78, 60_exceptions R132). Checking operand a before operand b is the order of R136. -/
def withReg (m : Mnemonic) (operand : Operand) (b : Byte) (s : State) (k : RegIndex → Result) : Result :=
  match regIndex Config.regIndexCheck b with
  | some i => k i
  | none => .next (s.raise (.invalidRegister b operand) (opcodeMap m))

/-- Pre-decrement: the address PUSH stores to, one below SP modulo 256 (43_stack R106). -/
def State.pushAddr (s : State) : Byte := s.reg Config.spIndex - 1

/-- Post-increment: the address POP reads and zeroes, SP itself (43_stack R106). -/
def State.popAddr (s : State) : Byte := s.reg Config.spIndex

end Sys2Proof.Machine
end

