-- ==== Sys2Proof/Machine/Alu.lean ====
section
/-! DEFINITION. MUL, ADD, CMP (42_alu). -/

namespace Sys2Proof.Machine

open Sys2Proof

/-- MUL a, b (R90). -/
def execMul (a b : Byte) (s : State) : Result :=
  withReg .mul .a a s fun i => withReg .mul .b b s fun j =>
    finish .mul (s.setReg i (aluMul (s.reg i) (s.reg j)))

/-- ADD a, b (R91). -/
def execAdd (a b : Byte) (s : State) : Result :=
  withReg .add .a a s fun i => withReg .add .b b s fun j =>
    finish .add (s.setReg i (aluAdd (s.reg i) (s.reg j)))

/-- CMP a, b (R92). -/
def execCmp (a b : Byte) (s : State) : Result :=
  withReg .cmp .a a s fun i => withReg .cmp .b b s fun j =>
    finish .cmp (s.setFl (aluCmp (s.reg i) (s.reg j)))

end Sys2Proof.Machine
end

