-- ==== Sys2Proof/Machine/ControlData.lean ====
section
/-! DEFINITION. HLT, LDI, PRN (41_control_data). -/

namespace Sys2Proof.Machine

open Sys2Proof

/-- HLT: HALT is set and the loop still advances the PC (R85, decision D13; log entry 17). -/
def execHlt (s : State) : Result := finish .hlt s.setHalt

/-- LDI r, v (R86). -/
def execLdi (r v : Byte) (s : State) : Result :=
  withReg .ldi .a r s fun i => finish .ldi (s.setReg i v)

/-- PRN r (R87). -/
def execPrn (r : Byte) (s : State) : Result :=
  withReg .prn .a r s fun i => finish .prn (s.emit (s.reg i))

end Sys2Proof.Machine
end

