-- ==== Sys2Proof/Machine/Stack.lean ====
section
/-! DEFINITION. PUSH, POP (43_stack). -/

namespace Sys2Proof.Machine

open Sys2Proof

/-- PUSH r: SP is decremented first, and `R[r]` is read after the decrement (R100, R102; log entry 16). -/
def execPush (r : Byte) (s : State) : Result :=
  withReg .push .a r s fun i =>
    let s₁ := s.setReg Config.spIndex s.pushAddr
    finish .push (s₁.memWrite s.pushAddr (s₁.reg i))

/-- POP r: the cell read is the cell zeroed, and SP is incremented after `R[r]` is written (R101, R103; log entry 16). -/
def execPop (r : Byte) (s : State) : Result :=
  withReg .pop .a r s fun i =>
    let s₁ := (s.setReg i (s.memRead s.popAddr)).memWrite s.popAddr 0x00
    finish .pop (s₁.setReg Config.spIndex (s₁.reg Config.spIndex + 1))

end Sys2Proof.Machine
end

