-- ==== Sys2Proof/Machine/Transfer.lean ====
section
/-! DEFINITION. CALL, RET, JMP, JEQ, JNE (44_control_transfer): each writes the PC itself on every path. -/

namespace Sys2Proof.Machine

open Sys2Proof

/-- CALL r: the address of the byte after this CALL goes to LINK, whether or not LINK was valid (R110, R116). -/
def execCall (r : Byte) (s : State) : Result :=
  withReg .call .a r s fun i => finish .call ((s.setLink (some (s.pc + 2))).setPc (s.reg i))

/-- RET: to the saved link, which is cleared; with no valid link it takes InvalidReturn (R111, R133; log entry 8). -/
def execRet (s : State) : Result :=
  match s.link with
  | some t => finish .ret ((s.setPc t).setLink none)
  | none => .next (s.raise .invalidReturn (opcodeMap .ret))

/-- JMP r (R112). -/
def execJmp (r : Byte) (s : State) : Result :=
  withReg .jmp .a r s fun i => finish .jmp (s.setPc (s.reg i))

/-- JEQ r: taken when `E` = 1, else past its own two bytes (R113). -/
def execJeq (r : Byte) (s : State) : Result :=
  withReg .jeq .a r s fun i =>
    finish .jeq (s.setPc (if equalSet s.fl then s.reg i else s.pc + 2))

/-- JNE r: taken when `E` = 0, also before the first CMP (R114, R119, conflict C2). -/
def execJne (r : Byte) (s : State) : Result :=
  withReg .jne .a r s fun i =>
    finish .jne (s.setPc (if equalSet s.fl then s.pc + 2 else s.reg i))

end Sys2Proof.Machine
end

