-- ==== Sys2Proof/Machine/Step.lean ====
section
/-! DEFINITION. One step of the execution loop (40_execution_loop R77), and the host's placing of an instruction. -/

namespace Sys2Proof.Machine

open Sys2Proof

/-- One step: none exists before Load, in Halted or in Faulted; else fetch, decode, and the instruction's meaning, or
InvalidOpcode (40_execution_loop R70, R77, 70_reset_and_hazards R151). -/
def step (s : State) : Host.Outcome State Fault Refusal :=
  match s.noStep with
  | some f => .fault f
  | none =>
    match s.fetchDecode with
    | .ok i => exec i s
    | .error e => rejectOpcode e s

/-- `s` with the instruction of table bits `w` at the PC and in the run state and launch phase in which a step exists:
it stands for the Load from outside and is no event of the hardware (log entry 25). -/
def State.withFetchWord (s : State) (nbits w : Nat) : State :=
  { s.placeWord nbits w with loaded := true, halt := false, fault := none }

end Sys2Proof.Machine
end

