-- ==== Sys2Proof/Machine/Environment.lean ====
section
/-! DEFINITION. What the environment can do to the core (40_execution_loop R79 to R84, 70_reset_and_hazards R150 to R152). -/

namespace Sys2Proof.Machine

open Sys2Proof

/-- The events of the core's life: a reset, the load of an image, one step of a run. -/
inductive Event where
  /-- Reset, possible at any time (70_reset_and_hazards R150). -/
  | reset
  /-- Load(IMAGE), all 256 cells (40_execution_loop R79). -/
  | load (image : Vector Byte 256)
  /-- One step of the loop (40_execution_loop R77). -/
  | step
  deriving DecidableEq, Repr

/-- What an event does: Load happens only between a reset and the first step (40_execution_loop R79,
70_reset_and_hazards R152; a Load at any other time is refused, log entry 14). -/
def event (e : Event) (s : State) : Result :=
  match e with
  | .reset => .next s.resetEvent
  | .load image => if s.loaded then .refused .loadOutOfOrder else .next (s.loadImage image)
  | .step => step s

end Sys2Proof.Machine
end

