-- ==== Sys2Proof/Safety.lean ====
section
/-! DEFINITION. The invariant of the machine's states, the reachable states, and the normal end of a run. -/

namespace Sys2Proof.Machine

open Sys2Proof

/-- The flag values FL can hold: one-hot after a CMP, none before the first (10_state R18). -/
abbrev legalFlags (f : Flags) : Prop := f = 0b000 ∨ f = 0b001 ∨ f = 0b010 ∨ f = 0b100

/-- The condition of 60_exceptions R130 behind a cause, in the state a fault leaves (which is the state it found). -/
abbrev causeHolds (s : State) (ir : Byte) : FaultCause → Prop
  | .invalidOpcode => lookupOpcode ir = none
  | .invalidRegister b .a => 8 ≤ b.toNat ∧ b = s.fetchByte 1
  | .invalidRegister b .b => 8 ≤ b.toNat ∧ b = s.fetchByte 2
  | .invalidReturn => ir = opcodeMap .ret ∧ s.link = none

/-- A fault record tells of the instruction the PC still stands on (60_exceptions R130, R134). -/
abbrev recordTrue (s : State) (r : FaultRecord) : Prop :=
  r.pc = s.pc ∧ r.ir = s.fetchByte 0 ∧ causeHolds s r.ir r.cause

/-- What every state of a run satisfies: memory in canonical form, a legal FL (R18), not both HALT and a fault record
(10_state R24), a true fault record (60_exceptions R134), and the reset values in every register until Load (R152). -/
structure State.Inv (s : State) : Prop where
  mem : s.mem.wf
  fl : legalFlags s.fl
  oneEnd : ¬ (s.halt = true ∧ s.fault.isSome = true)
  record : ∀ r ∈ s.fault, recordTrue s r
  launch : s.loaded = false → s = { State.reset with mem := s.mem }

/-- The states the events lead to from the reset state. -/
inductive Reachable : State → Prop where
  | reset : Reachable State.reset
  | event {s t : State} (e : Event) : Reachable s → Machine.event e s = .next t → Reachable t

/-- The normal end of a run: Halted; a Faulted core is no normal end (00_scope R8, 60_exceptions R135). -/
abbrev State.normalEnd (s : State) : Prop := s.runState = .halted

end Sys2Proof.Machine
end

