-- ==== Sys2Proof/Certificates/Slice0/Obligations.lean ====
section
/-! DEFINITION. The statements for the provers. Each docstring names the rules of spec/ it formalises, and the spec's own
decisions (92_eei_decisions D<n>) or log entries it rests on. Results are written as record updates of the state, so that
what is not named there is unchanged. -/

open Sys2Proof Sys2Proof.Machine

/-! ### Encoding and decoding -/

/-- Decode of encode is the instruction, for every instruction, every operand byte, and whatever bytes follow it
(30_encoding R50, R53, R55). Independent of which thirteen distinct bytes OPCODE_MAP holds. -/
def Obligations.DecodeOfEncodeIsTheInstruction : Prop :=
  ∀ (i : Instr) (rest : List Byte), decodeBytes (encode i ++ rest) = .ok i

/-- Encode of decode is the bytes read: the opcode byte and as many operand bytes as its `op_size` field says
(30_encoding R51, R52). -/
def Obligations.EncodeOfDecodeIsTheBytesRead : Prop :=
  ∀ (ir opa opb : Byte) (i : Instr), decode ir opa opb = .ok i →
    encode i = [ir, opa, opb].take (ir.toNat / 64 + 1)

/-- Words written out from 30_encoding R63 and 95_test_vectors decode to what they stand for (opcode bytes: D1). -/
def Obligations.SpecWordsDecode : Prop :=
  decode 0x01 0x00 0x00 = .ok .hlt ∧ decode 0x82 0x00 0x08 = .ok (.ldi 0 8) ∧
  decode 0x47 0x07 0x00 = .ok (.prn 7) ∧ decode 0xA2 0x00 0x01 = .ok (.mul 0 1) ∧
  decode 0xA0 0x01 0x00 = .ok (.add 1 0) ∧ decode 0xA7 0x04 0x04 = .ok (.cmp 4 4) ∧
  decode 0x45 0x01 0x00 = .ok (.push 1) ∧ decode 0x46 0x07 0x00 = .ok (.pop 7) ∧
  decode 0x50 0x01 0x00 = .ok (.call 1) ∧ decode 0x11 0x00 0x00 = .ok .ret ∧
  decode 0x54 0x04 0x00 = .ok (.jmp 4) ∧ decode 0x55 0x02 0x00 = .ok (.jeq 2) ∧
  decode 0x56 0x04 0x00 = .ok (.jne 4)

/-- Exactly the opcode bytes outside the thirteen are rejected, each by name, whatever bytes follow
(30_encoding R58, R60; the byte values are decision D1, the rejection decision D10). -/
def Obligations.OtherOpcodeBytesAreRejected : Prop :=
  ∀ ir opa opb : Byte, decode ir opa opb = .error (.invalidOpcode ir) ↔
    ir.toNat ∉ [0x01, 0x82, 0x47, 0xA2, 0xA0, 0xA7, 0x45, 0x46, 0x50, 0x11, 0x54, 0x55, 0x56]

/-- `opa` is the byte at PC + 1 and `opb` the byte at PC + 2; operand bytes an instruction's format does not use are
ignored, and the ones it uses are all there: format Z (`op_size` 0) uses neither byte, format R (1) only the first,
formats RR and RI (2) both (30_encoding R54, R55, 40_execution_loop R73; that PC + 1 and PC + 2 wrap past 0xFF is the
spec's own decision D9, log entry 6). -/
def Obligations.UnusedOperandBytesAreIgnored : Prop :=
  (∀ s : State, s.fetchDecode = decode (s.memRead s.pc) (s.memRead (s.pc + 1)) (s.memRead (s.pc + 2))) ∧
  ∀ (ir opa opb opa' opb' : Byte) (i j : Instr), decode ir opa opb = .ok i → decode ir opa' opb' = .ok j →
    (ir.toNat / 64 = 0 → i = j) ∧
    (ir.toNat / 64 = 1 → (i = j ↔ opa = opa')) ∧
    (ir.toNat / 64 = 2 → (i = j ↔ opa = opa' ∧ opb = opb'))

/-- The `sets_pc` bit is 1 exactly for CALL, RET, JMP, JEQ and JNE (30_encoding R51, R59 b; opcode bytes: D1). -/
def Obligations.SetsPcExactlyOnTransfers : Prop :=
  ∀ (ir opa opb : Byte) (i : Instr), decode ir opa opb = .ok i →
    (ir.getLsbD 4 = true ↔
      (i = .ret ∨ ∃ r, i = .call r ∨ i = .jmp r ∨ i = .jeq r ∨ i = .jne r))

/-! ### The step -/

/-- A step of a loaded, running core whose bytes at PC, PC + 1 and PC + 2 (modulo 256) decode to `i` is `exec` of `i`:
the step adds nothing around it (40_execution_loop R73 to R75, R77; the loop's PC update is part of `exec`). -/
def Obligations.StepRunsTheDecodedInstruction : Prop :=
  ∀ (s : State) (i : Instr), s.loaded = true → s.runState = .running →
    decode (s.memRead s.pc) (s.memRead (s.pc + 1)) (s.memRead (s.pc + 2)) = .ok i → step s = exec i s

/-- An instruction's bytes stored at the PC in ascending addresses, across 0xFF as well, are run by the next step,
whatever stands after them (20_memory R35, R36, 40_execution_loop R77; the wrap is decision D9). -/
def Obligations.StoredInstructionRunsAtAnyAddress : Prop :=
  ∀ (s : State) (i : Instr), s.loaded = true → s.runState = .running →
    (∀ (k : Nat) (b : Byte), (encode i)[k]? = some b → s.memRead (s.pc + BitVec.ofNat 8 k) = b) →
    step s = exec i s

/-- The step's table, as 40_execution_loop R77 writes it: dispatch is on the whole byte at the PC (opcode bytes: D1;
the fault of the last line: D10, D12; the wrap of the operand addresses: D9). -/
def Obligations.StepDispatchesOnTheOpcodeByte : Prop :=
  ∀ s : State, s.loaded = true → s.runState = .running →
    let ir := s.memRead s.pc
    let opa := s.memRead (s.pc + 1)
    let opb := s.memRead (s.pc + 2)
    step s =
      if ir = 0x01 then exec .hlt s
      else if ir = 0x82 then exec (.ldi opa opb) s
      else if ir = 0x47 then exec (.prn opa) s
      else if ir = 0xA2 then exec (.mul opa opb) s
      else if ir = 0xA0 then exec (.add opa opb) s
      else if ir = 0xA7 then exec (.cmp opa opb) s
      else if ir = 0x45 then exec (.push opa) s
      else if ir = 0x46 then exec (.pop opa) s
      else if ir = 0x50 then exec (.call opa) s
      else if ir = 0x11 then exec .ret s
      else if ir = 0x54 then exec (.jmp opa) s
      else if ir = 0x55 then exec (.jeq opa) s
      else if ir = 0x56 then exec (.jne opa) s
      else .next { s with fault := some { cause := .invalidOpcode, pc := s.pc, ir := ir } }

/-- A step exists exactly in a loaded, running core, and then answers a next state; where none exists the step says
which of Halted, Faulted and not loaded it is, and no step is refused (40_execution_loop R70, 70_reset_and_hazards R151,
decisions D6 and D16; the names and the answer for a step that does not exist are log entries 11 and 12). -/
def Obligations.StepExistsExactlyInALoadedRunningCore : Prop :=
  ∀ s : State,
    ((∃ t, step s = .next t) ↔ s.loaded = true ∧ s.runState = .running) ∧
    (s.runState = .halted → step s = .fault .halted) ∧
    (s.runState = .faulted → step s = .fault .faulted) ∧
    (s.runState = .running → s.loaded = false → step s = .fault .notLoaded) ∧
    (∀ r, step s ≠ .refused r)

/-- Every instruction may be executed in every state, on every operand byte: its meaning always answers a next state
(60_exceptions R142, R134, R137; a fault of the core is a next state, log entry 10). -/
def Obligations.EveryInstructionAnswersANextState : Prop :=
  ∀ (i : Instr) (s : State), ∃ t, exec i s = .next t

/-! ### HLT, LDI, PRN -/

/-- HLT sets HALT, and the PC advances by 1; nothing else changes (41_control_data R85; the advance is decision D13,
its wrap D9). -/
def Obligations.HltHalts : Prop :=
  ∀ s : State, exec .hlt s = .next { s with halt := true, pc := s.pc + 1 }

/-- LDI writes its immediate as it stands to the register its first byte names, register 7 included, and the PC advances
by 3; nothing else changes (41_control_data R86, 30_encoding R57). -/
def Obligations.LdiLoadsTheImmediate : Prop :=
  ∀ (s : State) (r v : Byte) (h : r.toNat < 8),
    exec (.ldi r v) s = .next { s with regs := s.regs.set r.toNat v h, pc := s.pc + 3 }

/-- PRN appends the register's value to OUT, and the PC advances by 2; nothing else changes (41_control_data R87). -/
def Obligations.PrnEmitsTheRegister : Prop :=
  ∀ (s : State) (r : Byte) (h : r.toNat < 8),
    exec (.prn r) s = .next { s with out := s.out ++ [s.regs[r.toNat]], pc := s.pc + 2 }

/-! ### MUL, ADD, CMP -/

/-- MUL: `R[a]` becomes the product modulo 256, `a = b` and register 7 included, and the PC advances by 3; nothing else
changes, FL least of all (42_alu R90, R93). -/
def Obligations.MulMultipliesModulo256 : Prop :=
  ∀ (s : State) (a b : Byte) (ha : a.toNat < 8) (hb : b.toNat < 8),
    exec (.mul a b) s = .next { s with
      regs := s.regs.set a.toNat
        (BitVec.ofNat 8 ((s.regs[a.toNat].toNat * s.regs[b.toNat].toNat) % 256)) ha,
      pc := s.pc + 3 }

/-- ADD: `R[a]` becomes the sum modulo 256, `a = b` and register 7 included, and the PC advances by 3; nothing else
changes, FL least of all (42_alu R91, R93). -/
def Obligations.AddAddsModulo256 : Prop :=
  ∀ (s : State) (a b : Byte) (ha : a.toNat < 8) (hb : b.toNat < 8),
    exec (.add a b) s = .next { s with
      regs := s.regs.set a.toNat
        (BitVec.ofNat 8 ((s.regs[a.toNat].toNat + s.regs[b.toNat].toNat) % 256)) ha,
      pc := s.pc + 3 }

/-- CMP overwrites FL with L, E or G by the unsigned order of the two registers, and the PC advances by 3; nothing else
changes (42_alu R92). -/
def Obligations.CmpSetsOneFlag : Prop :=
  ∀ (s : State) (a b : Byte) (ha : a.toNat < 8) (hb : b.toNat < 8),
    exec (.cmp a b) s = .next { s with
      fl := if s.regs[a.toNat].toNat < s.regs[b.toNat].toNat then 0b100
        else if s.regs[a.toNat] = s.regs[b.toNat] then 0b001 else 0b010,
      pc := s.pc + 3 }

/-- The ALU is a pure function of its two operands, `alu_add`, `alu_mul` and `alu_cmp` as 42_alu R94 gives them; ADD and
MUL put its result in the register file in place, CMP in the flags register. -/
def Obligations.AluIsAPureFunction : Prop :=
  (∀ x y : Byte, (aluAdd x y).toNat = (x.toNat + y.toNat) % 256) ∧
  (∀ x y : Byte, (aluMul x y).toNat = (x.toNat * y.toNat) % 256) ∧
  (∀ x y : Byte, aluCmp x y = if x.toNat < y.toNat then 0b100 else if x = y then 0b001 else 0b010) ∧
  (∀ (s : State) (a b : Byte) (ha : a.toNat < 8) (hb : b.toNat < 8),
    (∃ t, exec (.add a b) s = .next t ∧
      t.regs = s.regs.set a.toNat (aluAdd s.regs[a.toNat] s.regs[b.toNat]) ha ∧ t.fl = s.fl) ∧
    (∃ t, exec (.mul a b) s = .next t ∧
      t.regs = s.regs.set a.toNat (aluMul s.regs[a.toNat] s.regs[b.toNat]) ha ∧ t.fl = s.fl) ∧
    (∃ t, exec (.cmp a b) s = .next t ∧
      t.regs = s.regs ∧ t.fl = aluCmp s.regs[a.toNat] s.regs[b.toNat]))

/-! ### PUSH, POP -/

/-- PUSH decrements SP and stores at the new SP the register as it is after the decrement, so PUSH R7 stores the
decremented SP; the PC advances by 2; nothing else changes (43_stack R100, R104; PUSH R7 is R102, decision D11). -/
def Obligations.PushStoresBelowTheStackPointer : Prop :=
  ∀ (s : State) (r : Byte) (h : r.toNat < 8),
    ∃ t, exec (.push r) s = .next t ∧
      t = { s with regs := s.regs.set 7 (s.regs[7] - 1), mem := t.mem, pc := s.pc + 2 } ∧
      (∀ x, t.memRead x = if x = s.pushAddr then
          (if r.toNat = 7 then s.regs[7] - 1 else s.regs[r.toNat]) else s.memRead x) ∧
      s.pushAddr = s.regs[7] - 1

/-- POP reads the cell at SP into the register, zeroes that cell, and then increments SP, so POP R7 leaves R7 one above
the value read; the PC advances by 2; nothing else changes (43_stack R101, R104; POP R7 is R103, decision D11). -/
def Obligations.PopReadsAndZeroesTheStackCell : Prop :=
  ∀ (s : State) (r : Byte) (h : r.toNat < 8),
    ∃ t, exec (.pop r) s = .next t ∧
      t = { s with
        regs := if r.toNat = 7 then s.regs.set 7 (s.memRead s.regs[7] + 1)
          else (s.regs.set r.toNat (s.memRead s.regs[7]) h).set 7 (s.regs[7] + 1),
        mem := t.mem, pc := s.pc + 2 } ∧
      (∀ x, t.memRead x = if x = s.popAddr then 0 else s.memRead x) ∧
      s.popAddr = s.regs[7]

/-- PUSH then POP of the same register restores the registers, SP and every cell but the one below SP, which holds 0, for
every register and every SP (43_stack R105, which the spec derives; register 7 rests on decision D11, the PC's wrap on
D9). -/
def Obligations.PushThenPopRestores : Prop :=
  ∀ (s : State) (r : Byte), r.toNat < 8 →
    ∃ t u, exec (.push r) s = .next t ∧ exec (.pop r) t = .next u ∧
      u = { s with mem := u.mem, pc := s.pc + 4 } ∧
      (∀ x, u.memRead x = if x = s.regs[7] - 1 then 0 else s.memRead x)

/-- PUSH Ra then POP Rb copies `R[a]` into `R[b]` with SP restored and the same effect on memory, for a and b other than
the stack pointer itself (43_stack R105, which the spec derives; with R7 the order of effects decides, log entry 16; the
PC's wrap is decision D9). -/
def Obligations.PushThenPopCopies : Prop :=
  ∀ (s : State) (a b : Byte) (ha : a.toNat < 7) (hb : b.toNat < 7),
    ∃ t u, exec (.push a) s = .next t ∧ exec (.pop b) t = .next u ∧
      u = { s with regs := s.regs.set b.toNat s.regs[a.toNat], mem := u.mem, pc := s.pc + 4 } ∧
      (∀ x, u.memRead x = if x = s.regs[7] - 1 then 0 else s.memRead x)

/-- A byte PUSH writes, or POP zeroes, is what the fetch of the very next step reads at that address, through either of
the three fetched bytes (20_memory R43, which the spec derives; the value PUSH writes is 43_stack R100's; that PUSH R7
writes the decremented SP is R102, the spec's own decision D11, log entry 16; the wrap of the fetch address is D9, log
entry 6). -/
def Obligations.FetchSeesTheStoreAtOnce : Prop :=
  ∀ (s t : State) (r k : Byte) (h : r.toNat < 8),
    (exec (.push r) s = .next t → t.pc + k = s.pushAddr →
      t.fetchByte k = if r.toNat = 7 then s.regs[7] - 1 else s.regs[r.toNat]) ∧
    (exec (.pop r) s = .next t → t.pc + k = s.popAddr → t.fetchByte k = 0)

/-! ### CALL, RET, JMP, JEQ, JNE -/

/-- CALL saves the address after its own two bytes in LINK, whether or not LINK was valid, and goes to the register's
value; nothing else changes (44_control_transfer R110; a link past 0xFF wraps, decision D9). -/
def Obligations.CallSavesTheLink : Prop :=
  ∀ (s : State) (r : Byte) (h : r.toNat < 8),
    exec (.call r) s = .next { s with link := some (s.pc + 2), pc := s.regs[r.toNat] }

/-- RET with a valid link goes to it and clears it; nothing else changes (44_control_transfer R111). -/
def Obligations.RetGoesToTheLink : Prop :=
  ∀ (s : State) (a : Byte), s.link = some a → exec .ret s = .next { s with pc := a, link := none }

/-- JMP goes to the register's value; nothing else changes (44_control_transfer R112). -/
def Obligations.JmpGoesToTheRegister : Prop :=
  ∀ (s : State) (r : Byte) (h : r.toNat < 8),
    exec (.jmp r) s = .next { s with pc := s.regs[r.toNat] }

/-- JEQ goes to the register's value when bit 0 of FL is 1, else past its own two bytes; nothing else changes
(44_control_transfer R113). -/
def Obligations.JeqIsTakenOnEqual : Prop :=
  ∀ (s : State) (r : Byte) (h : r.toNat < 8),
    (s.fl.getLsbD 0 = true → exec (.jeq r) s = .next { s with pc := s.regs[r.toNat] }) ∧
    (s.fl.getLsbD 0 = false → exec (.jeq r) s = .next { s with pc := s.pc + 2 })

/-- JNE goes to the register's value when bit 0 of FL is 0, also with no flag set, else past its own two bytes; nothing
else changes (44_control_transfer R114; with no flag set: conflict C2, R119). -/
def Obligations.JneIsTakenOnNotEqual : Prop :=
  ∀ (s : State) (r : Byte) (h : r.toNat < 8),
    (s.fl.getLsbD 0 = false → exec (.jne r) s = .next { s with pc := s.regs[r.toNat] }) ∧
    (s.fl.getLsbD 0 = true → exec (.jne r) s = .next { s with pc := s.pc + 2 })

/-- After a CMP of two registers, JEQ is taken exactly when their values are equal and JNE exactly when they differ
(44_control_transfer R113 a, R114 a, 42_alu R92; the wrap of the PC is decision D9). -/
def Obligations.JumpsFollowTheMostRecentCompare : Prop :=
  ∀ (s : State) (a b r : Byte) (ha : a.toNat < 8) (hb : b.toNat < 8) (hr : r.toNat < 8),
    ∃ t u v, exec (.cmp a b) s = .next t ∧ exec (.jeq r) t = .next u ∧ exec (.jne r) t = .next v ∧
      u.pc = (if s.regs[a.toNat] = s.regs[b.toNat] then s.regs[r.toNat] else s.pc + 5) ∧
      v.pc = (if s.regs[a.toNat] = s.regs[b.toNat] then s.pc + 5 else s.regs[r.toNat])

/-- CALL and RET do not use the stack: the return address goes to LINK, not to memory, and memory and the registers,
R7 among them, are unchanged by both, whatever the operand byte (43_stack R107); the link a CALL leaves is
44_control_transfer R110's, its form decision D5 (log entry 5) and its wrap past 0xFF decision D9 (log entry 6). -/
def Obligations.CallAndRetDoNotUseTheStack : Prop :=
  (∀ (s t : State) (r : Byte), exec (.call r) s = .next t → t.mem = s.mem ∧ t.regs = s.regs) ∧
  (∀ (s t : State), exec .ret s = .next t → t.mem = s.mem ∧ t.regs = s.regs) ∧
  (∀ (s : State) (r : Byte), r.toNat < 8 →
    ∃ t, exec (.call r) s = .next t ∧ t.link = some (s.pc + 2))

/-- The call mechanism is one level deep: of two CALLs with no RET between, the first RET goes to the address after the
second CALL and clears LINK, the first CALL's return address is lost, and a further RET takes InvalidReturn
(44_control_transfer R116; InvalidReturn is decision D8, its record D12 with the opcode byte D1; the link's form is D5 and
its wrap D9). -/
def Obligations.NestedCallsKeepOneLink : Prop :=
  ∀ (s : State) (q r : Byte) (hq : q.toNat < 8) (hr : r.toNat < 8),
    ∃ t u v w, exec (.call q) s = .next t ∧ exec (.call r) t = .next u ∧
      exec .ret u = .next v ∧ exec .ret v = .next w ∧
      u.link = some (s.regs[q.toNat] + 2) ∧ v.pc = s.regs[q.toNat] + 2 ∧ v.link = none ∧
      w = { v with fault := some { cause := .invalidReturn, pc := v.pc, ir := 0x11 } }

/-! ### Faults -/

/-- A register operand byte above 7 in the one-register formats takes InvalidRegister, taken or not, and nothing else
changes: the record holds the byte, operand a, the PC and the opcode byte (60_exceptions R130, R132, R134, 30_encoding
R56: decisions D7 and D12; opcode bytes: D1). -/
def Obligations.BadRegisterByteFaults : Prop :=
  ∀ (s : State) (r v : Byte), 8 ≤ r.toNat →
    let bad (ir : Byte) : State :=
      { s with fault := some { cause := .invalidRegister r .a, pc := s.pc, ir := ir } }
    exec (.ldi r v) s = .next (bad 0x82) ∧ exec (.prn r) s = .next (bad 0x47) ∧
    exec (.push r) s = .next (bad 0x45) ∧ exec (.pop r) s = .next (bad 0x46) ∧
    exec (.call r) s = .next (bad 0x50) ∧ exec (.jmp r) s = .next (bad 0x54) ∧
    exec (.jeq r) s = .next (bad 0x55) ∧ exec (.jne r) s = .next (bad 0x56)

/-- In the two-register format a byte above 7 takes InvalidRegister and nothing else changes; operand a is reported
when it is bad, whatever operand b is, and operand b when only it is bad (60_exceptions R132, R134, R136: decisions D7,
D12 and D18; opcode bytes: D1). -/
def Obligations.BadRegisterPairFaults : Prop :=
  ∀ (s : State) (a b : Byte),
    let bad (c : Byte) (o : Operand) (ir : Byte) : State :=
      { s with fault := some { cause := .invalidRegister c o, pc := s.pc, ir := ir } }
    (8 ≤ a.toNat → exec (.mul a b) s = .next (bad a .a 0xA2) ∧
      exec (.add a b) s = .next (bad a .a 0xA0) ∧ exec (.cmp a b) s = .next (bad a .a 0xA7)) ∧
    (a.toNat < 8 → 8 ≤ b.toNat → exec (.mul a b) s = .next (bad b .b 0xA2) ∧
      exec (.add a b) s = .next (bad b .b 0xA0) ∧ exec (.cmp a b) s = .next (bad b .b 0xA7))

/-- RET with no valid link takes InvalidReturn and nothing else changes (44_control_transfer R111, 60_exceptions R133,
R134: decisions D8 and D12; the opcode byte: D1). -/
def Obligations.RetWithoutLinkFaults : Prop :=
  ∀ s : State, s.link = none →
    exec .ret s = .next { s with fault := some { cause := .invalidReturn, pc := s.pc, ir := 0x11 } }

/-- When a step faults, the state is as before but for the fault record, so the PC still stands on the instruction; the
record holds its address, its opcode byte and the condition that holds there, and the core is Faulted
(60_exceptions R130, R134: decision D12; the wrap of the operand addresses: D9). -/
def Obligations.FaultsArePrecise : Prop :=
  ∀ (s t : State) (f : FaultRecord), step s = .next t → t.fault = some f →
    t = { s with fault := some f } ∧ f.pc = s.pc ∧ f.ir = s.memRead s.pc ∧
      causeHolds s f.ir f.cause ∧ t.runState = .faulted

/-- A step faults exactly when the opcode byte is none of the thirteen, a register operand byte is above 7, or it is a
RET with no valid link, and the record's code is then 1, 2 or 3 in that order; nothing else faults (60_exceptions R130,
R137: decisions D7, D8, D10 and D12; opcode bytes D1; the wrap of the operand addresses D9). -/
def Obligations.StepFaultsExactlyOnTheThreeConditions : Prop :=
  ∀ s t : State, step s = .next t →
    let d := decode (s.memRead s.pc) (s.memRead (s.pc + 1)) (s.memRead (s.pc + 2))
    (t.fault = none ↔ ∃ i, d = .ok i ∧ i.wellFormed = true ∧ ¬ (i = .ret ∧ s.link = none)) ∧
    (∀ f, t.fault = some f →
      (f.cause.code = 1 ↔ ∀ i, d ≠ .ok i) ∧
      (f.cause.code = 2 ↔ ∃ i, d = .ok i ∧ i.wellFormed = false) ∧
      (f.cause.code = 3 ↔ d = .ok .ret))

/-- The policies the spec describes and does not adopt: under `legacy_nop` an undefined opcode byte only advances the PC
by `op_size + 1` (its wrap is decision D9), and not at all when bit 4 is set, so that the state is unchanged for ever
(30_encoding R61); under `mask3` an operand byte names the register of its low three bits (decision D7). -/
def Obligations.AlternativePolicies : Prop :=
  (∀ (s : State) (ir : Byte), ir.getLsbD 4 = true → s.undefinedOpcode ir .legacyNop = s) ∧
  (∀ (s : State) (ir : Byte), ir.getLsbD 4 = false →
    s.undefinedOpcode ir .legacyNop = { s with pc := s.pc + BitVec.ofNat 8 (ir.toNat / 64 + 1) }) ∧
  (∀ b : Byte, (regIndex .mask3 b).map Fin.val = some (b.toNat % 8))

/-! ### What each kind of state is reached by -/

/-- FL is written by CMP only, which leaves exactly one bit set, L = bit 2, G = bit 1, E = bit 0; no instruction but JEQ
and JNE depends on FL, and those two depend on E only (10_state R17). "Agrees but for FL" is said by putting one state's
FL into the other. -/
def Obligations.FlagsBelongToCompareAndTheJumps : Prop :=
  (∀ (i : Instr) (s t : State), (∀ a b, i ≠ .cmp a b) → exec i s = .next t → t.fl = s.fl) ∧
  (∀ (s : State) (a b : Byte) (ha : a.toNat < 8) (hb : b.toNat < 8), ∃ t, exec (.cmp a b) s = .next t ∧
    t.fl.getLsbD 2 = decide (s.regs[a.toNat].toNat < s.regs[b.toNat].toNat) ∧
    t.fl.getLsbD 1 = decide (s.regs[a.toNat].toNat > s.regs[b.toNat].toNat) ∧
    t.fl.getLsbD 0 = decide (s.regs[a.toNat].toNat = s.regs[b.toNat].toNat)) ∧
  (∀ (i : Instr) (s t : State) (f : Flags), (∀ r, i ≠ .jeq r ∧ i ≠ .jne r) → exec i s = .next t →
    ∃ u, exec i { s with fl := f } = .next u ∧ { u with fl := t.fl } = t) ∧
  (∀ (i : Instr) (s t : State) (f : Flags), f.getLsbD 0 = s.fl.getLsbD 0 → exec i s = .next t →
    ∃ u, exec i { s with fl := f } = .next u ∧ { u with fl := t.fl } = t)

/-- HALT is 0 after reset, set by HLT and by nothing else, cleared by nothing but reset; no instruction reads it; a step
does not exist once it is set (10_state R23). -/
def Obligations.HaltBelongsToHltAndReset : Prop :=
  State.reset.halt = false ∧
  (∀ s : State, ∃ t, event .reset s = .next t ∧ t.halt = false) ∧
  (∀ s : State, ∃ t, exec .hlt s = .next t ∧ t.halt = true) ∧
  (∀ (i : Instr) (s t : State), i ≠ .hlt → exec i s = .next t → t.halt = s.halt) ∧
  (∀ (e : Event) (s t : State), event e s = .next t → s.halt = false → t.halt = true →
    e = .step ∧ s.fetchDecode = .ok .hlt) ∧
  (∀ (e : Event) (s t : State), event e s = .next t → s.halt = true → t.halt = false → e = .reset) ∧
  (∀ (i : Instr) (s t : State) (h : Bool), exec i s = .next t →
    ∃ u, exec i { s with halt := h } = .next u ∧ { u with halt := t.halt } = t) ∧
  (∀ s t : State, s.halt = true → step s ≠ .next t)

/-- OUT is empty after reset; PRN of a register appends that register's value; no other instruction changes OUT, and
no event but a reset removes anything from it (10_state R25). -/
def Obligations.OutputBelongsToPrn : Prop :=
  State.reset.out = [] ∧
  (∀ s : State, ∃ t, event .reset s = .next t ∧ t.out = []) ∧
  (∀ (s : State) (r : Byte) (h : r.toNat < 8),
    ∃ t, exec (.prn r) s = .next t ∧ t.out = s.out ++ [s.regs[r.toNat]]) ∧
  (∀ (i : Instr) (s t : State), (∀ r, i ≠ .prn r) → exec i s = .next t → t.out = s.out) ∧
  (∀ (e : Event) (s t : State), e ≠ .reset → event e s = .next t → s.out <+: t.out)

/-- LINK is written by CALL and RET only and read by RET only (10_state R21; its form is decision D5). -/
def Obligations.LinkBelongsToCallAndRet : Prop :=
  (∀ (i : Instr) (s t : State), i ≠ .ret → (∀ r, i ≠ .call r) → exec i s = .next t → t.link = s.link) ∧
  (∀ (i : Instr) (s t : State) (l : Option Byte), i ≠ .ret → exec i s = .next t →
    ∃ u, exec i { s with link := l } = .next u ∧ { u with link := t.link } = t)

/-- Every byte of memory is unchanged by every instruction but the one byte PUSH stores to, at the decremented SP, and
the one byte POP zeroes, at SP (10_state R19, R27, 20_memory R37). -/
def Obligations.MemoryFrame : Prop :=
  ∀ (i : Instr) (s t : State) (x : Byte), exec i s = .next t →
    (∀ r, i = .push r → x ≠ s.pushAddr) → (∀ r, i = .pop r → x ≠ s.popAddr) →
    t.memRead x = s.memRead x

/-- Beyond fetch, PUSH reads no byte of memory and POP only the byte at SP, and every other instruction neither reads nor
writes memory: its result is the same with any memory in place (10_state R19, 20_memory R45). -/
def Obligations.DataMemoryIsReachedOnlyThroughTheStack : Prop :=
  (∀ (i : Instr) (s t : State) (m : Memory), (∀ r, i ≠ .push r ∧ i ≠ .pop r) → exec i s = .next t →
    exec i { s with mem := m } = .next { t with mem := m }) ∧
  (∀ (s t : State) (r : Byte) (m : Memory), exec (.push r) s = .next t →
    ∃ u, exec (.push r) { s with mem := m } = .next u ∧ { u with mem := t.mem } = t) ∧
  (∀ (s t : State) (r : Byte) (m : Memory), m.read s.popAddr = s.memRead s.popAddr → exec (.pop r) s = .next t →
    ∃ u, exec (.pop r) { s with mem := m } = .next u ∧ { u with mem := t.mem } = t)

/-- Every register is unchanged by every instruction but the destination of LDI, MUL, ADD and POP, and R7 under PUSH and
POP (10_state R12, R27). -/
def Obligations.RegisterFrame : Prop :=
  ∀ (i : Instr) (s t : State) (k : Fin 8), exec i s = .next t →
    (∀ r v, i = .ldi r v → k.val ≠ r.toNat) → (∀ a b, i = .mul a b ∨ i = .add a b → k.val ≠ a.toNat) →
    (∀ r, i = .push r → k ≠ 7) → (∀ r, i = .pop r → k.val ≠ r.toNat ∧ k ≠ 7) →
    t.regs[k] = s.regs[k]

/-- An instruction depends on no register but the ones its operand bytes name, and R7 under PUSH and POP: another
register may hold any value, which it keeps, and the result is otherwise the same (10_state R12, R27). -/
def Obligations.OtherRegistersDoNotMatter : Prop :=
  ∀ (i : Instr) (s t : State) (k : Fin 8) (v : Byte), exec i s = .next t →
    (∀ b ∈ i.registerBytes, b.toNat ≠ k.val) →
    (∀ r, i = .push r ∨ i = .pop r → k ≠ 7) →
    exec i { s with regs := s.regs.set k v } = .next { t with regs := t.regs.set k v }

/-- The PC: after a step that does not fault, an instruction whose opcode byte has bit 4 at 0 has advanced it by
`op_size + 1`, and one with bit 4 at 1 has set it to its register, to the link, or past its own two bytes
(10_state R16, 40_execution_loop R76, conflict C3; the wrap is decision D9). -/
def Obligations.PcFollowsTheSetsPcBit : Prop :=
  ∀ s t : State, step s = .next t → t.fault = none →
    let ir := s.memRead s.pc
    (ir.getLsbD 4 = false → t.pc = s.pc + BitVec.ofNat 8 (ir.toNat / 64 + 1)) ∧
    (ir.getLsbD 4 = true → (∃ k : Fin 8, t.pc = s.regs[k]) ∨ s.link = some t.pc ∨ t.pc = s.pc + 2)

/-! ### Reset, load, and the whole life of the core -/

/-- The state after reset: R0 to R6 hold 0 (decision D3), R7 0xF3 (conflict C1, D2), PC 0, FL 000 (D4), LINK none (D5),
HALT 0, Running, no fault record, OUT empty (10_state R28, 70_reset_and_hazards R150). -/
def Obligations.ResetValues : Prop :=
  (∀ k : Fin 8, State.reset.regs[k] = if k = 7 then 0xF3 else 0) ∧ State.reset.pc = 0 ∧
  State.reset.fl = 0 ∧ State.reset.link = none ∧ State.reset.halt = false ∧
  State.reset.runState = .running ∧ State.reset.fault = none ∧ State.reset.out = []

/-- The event Reset may come in any state: it puts every register at its reset value, memory stays as it is, and an image
is due before the next step (70_reset_and_hazards R150, R151: decisions D6, D14 and D16; log entry 12). -/
def Obligations.ResetFromAnyState : Prop :=
  ∀ s : State, ∃ t, event .reset s = .next t ∧ t = { State.reset with mem := s.mem } ∧
    (∀ x, t.memRead x = s.memRead x) ∧ t.runState = .running ∧ step t = .fault .notLoaded

/-- Load(IMAGE) after a reset puts `IMAGE[a]` in every cell `a` and changes no register; once an image is loaded, Load is
no event of the core (40_execution_loop R79, 70_reset_and_hazards R152; the field `loaded` is log entry 12). R79 forbids
a Load during a run; that a second Load before the first step has no next state either is the model's own choice, log
entry 14. -/
def Obligations.LoadDefinesEveryCell : Prop :=
  ∀ (s : State) (image : Vector Byte 256),
    (s.loaded = false → ∃ t, event (.load image) s = .next t ∧
      t = { s with mem := t.mem, loaded := true } ∧
      (∀ a : Fin 256, t.memRead (BitVec.ofNat 8 a.val) = image[a])) ∧
    (s.loaded = true → ∀ t, event (.load image) s ≠ .next t)

/-- The launch: from the reset state no step exists; after Load(IMAGE) the first step is the one whose three bytes are
`IMAGE[0]`, `IMAGE[1]` and `IMAGE[2]`, run with the reset values in the registers (40_execution_loop R80,
70_reset_and_hazards R152; log entry 12). -/
def Obligations.LaunchStartsAtAddressZero : Prop :=
  step State.reset = .fault .notLoaded ∧
  ∀ image : Vector Byte 256, ∃ s, event (.load image) State.reset = .next s ∧
    (∀ i, decode image[0] image[1] image[2] = .ok i → step s = exec i s) ∧
    s = { State.reset with mem := s.mem, loaded := true }

/-- From Halted and from Faulted only a reset leads on, and it leads to Running, in a core that has its image
(40_execution_loop R70, 60_exceptions R135: decisions D12 and D16; that Load is refused in such a core is log entry 14). -/
def Obligations.OnlyResetLeavesHaltedAndFaulted : Prop :=
  ∀ (e : Event) (s t : State), s.loaded = true → s.runState ≠ .running → event e s = .next t →
    e = .reset ∧ t.runState = .running

/-- The run state changes only as the table of 40_execution_loop R70 says: a step leads from Running to Halted exactly
when it executes HLT, to Faulted exactly when it raises a fault, and else to Running (decision D12). -/
def Obligations.RunStateTransitions : Prop :=
  ∀ s t : State, step s = .next t →
    s.runState = .running ∧
    (t.runState = .halted ↔ s.fetchDecode = .ok .hlt) ∧
    (t.runState = .faulted ↔ ∃ f, t = { s with fault := some f })

/-- Every step keeps the invariant: memory in canonical form, FL one-hot or 000, never both HALT and a fault record, a
fault record true of the instruction the PC stands on, reset values until Load (10_state R18, R24, 60_exceptions R134,
70_reset_and_hazards R152; decisions D4, D12; log entries 12, 13, 15). -/
def Obligations.StepKeepsTheInvariant : Prop :=
  ∀ s t : State, s.Inv → step s = .next t → t.Inv

/-- Reset and Load keep the same invariant (40_execution_loop R79, 70_reset_and_hazards R150; log entries 12, 13, 15). -/
def Obligations.ResetAndLoadKeepTheInvariant : Prop :=
  ∀ (s t : State) (image : Vector Byte 256), s.Inv →
    (event .reset s = .next t ∨ event (.load image) s = .next t) → t.Inv

/-- The reset state satisfies the invariant (10_state R28; log entries 2 to 5, 12, 13). -/
def Obligations.ResetSatisfiesTheInvariant : Prop :=
  State.reset.Inv

/-- In every state the events lead to from reset, Halted is exactly HALT = 1, a Faulted core has HALT = 0, and FL is
000, 001, 010 or 100 (10_state R18, R24: decisions D4 and D12; log entry 15). -/
def Obligations.ReachableRunStatesAndFlags : Prop :=
  ∀ s : State, Reachable s →
    (s.normalEnd ↔ s.halt = true) ∧ (s.runState = .faulted → s.halt = false) ∧ legalFlags s.fl
end

