-- ==== Sys2Proof/Laws/Decode.lean ====
section
/-! SUPPORT. What the lookup by whole byte can answer, and what a decoded instruction says of its opcode byte. -/

namespace Sys2Proof

theorem mem_allMnemonics (m : Mnemonic) : m ∈ allMnemonics := by cases m <;> decide

theorem opcodeMap_injective : ∀ m n : Mnemonic, opcodeMap m = opcodeMap n → m = n := by
  intro m n
  cases m <;> cases n <;> decide

/-- The lookup inverts OPCODE_MAP (30_encoding R59 d). -/
theorem lookupOpcode_opcodeMap (m : Mnemonic) : lookupOpcode (opcodeMap m) = some m := by
  cases m <;> decide

theorem opcodeMap_of_lookup {ir : Byte} {m : Mnemonic} (h : lookupOpcode ir = some m) : opcodeMap m = ir := by
  simpa using List.find?_some h

theorem lookupOpcode_eq_none {ir : Byte} : lookupOpcode ir = none ↔ ∀ m, opcodeMap m ≠ ir := by
  constructor
  · intro h m hm
    subst hm
    simp [lookupOpcode_opcodeMap] at h
  · intro h
    exact List.find?_eq_none.mpr fun m _ => by simpa using h m

theorem mnemonic_instrOf (m : Mnemonic) (opa opb : Byte) : (instrOf m opa opb).mnemonic = m := by
  cases m <;> rfl

/-- All that decoding can answer: the instruction its row makes of the operand bytes, or the rejection by name. -/
theorem decode_cases (ir opa opb : Byte) :
    (∃ m, opcodeMap m = ir ∧ decode ir opa opb = .ok (instrOf m opa opb)) ∨
      (lookupOpcode ir = none ∧ decode ir opa opb = .error (.invalidOpcode ir)) := by
  unfold decode
  cases h : lookupOpcode ir with
  | some m => exact .inl ⟨m, opcodeMap_of_lookup h, rfl⟩
  | none => exact .inr ⟨rfl, rfl⟩

/-- The opcode byte of a decoded instruction is the byte it was decoded from. -/
theorem opcode_of_decode {ir opa opb : Byte} {i : Instr} (h : decode ir opa opb = .ok i) :
    opcodeMap i.mnemonic = ir := by
  obtain ⟨m, hm, hd⟩ | ⟨-, hd⟩ := decode_cases ir opa opb
  · obtain rfl : instrOf m opa opb = i := by simpa [hd] using h
    rw [mnemonic_instrOf, hm]
  · simp [hd] at h

end Sys2Proof
end

