-- ==== Sys2Proof/Laws/State.lean ====
section
/-! SUPPORT. One lemma per field per update of State, each true by rfl, so that no later proof unfolds a record update. -/

namespace Sys2Proof.Machine

open Sys2Proof

variable (s : State)

/-! ### setReg -/

@[simp] theorem State.setReg_mem (i : RegIndex) (v : Byte) : (s.setReg i v).mem = s.mem := rfl
@[simp] theorem State.setReg_regs (i : RegIndex) (v : Byte) : (s.setReg i v).regs = s.regs.set i v := rfl
@[simp] theorem State.setReg_pc (i : RegIndex) (v : Byte) : (s.setReg i v).pc = s.pc := rfl
@[simp] theorem State.setReg_fl (i : RegIndex) (v : Byte) : (s.setReg i v).fl = s.fl := rfl
@[simp] theorem State.setReg_link (i : RegIndex) (v : Byte) : (s.setReg i v).link = s.link := rfl
@[simp] theorem State.setReg_halt (i : RegIndex) (v : Byte) : (s.setReg i v).halt = s.halt := rfl
@[simp] theorem State.setReg_fault (i : RegIndex) (v : Byte) : (s.setReg i v).fault = s.fault := rfl
@[simp] theorem State.setReg_out (i : RegIndex) (v : Byte) : (s.setReg i v).out = s.out := rfl
@[simp] theorem State.setReg_loaded (i : RegIndex) (v : Byte) : (s.setReg i v).loaded = s.loaded := rfl
@[simp] theorem State.setReg_memRead (i : RegIndex) (v : Byte) (x : Byte) : (s.setReg i v).memRead x = s.memRead x := rfl

/-! ### memWrite -/

@[simp] theorem State.memWrite_mem (a v : Byte) : (s.memWrite a v).mem = s.mem.write a v := rfl
@[simp] theorem State.memWrite_regs (a v : Byte) : (s.memWrite a v).regs = s.regs := rfl
@[simp] theorem State.memWrite_pc (a v : Byte) : (s.memWrite a v).pc = s.pc := rfl
@[simp] theorem State.memWrite_fl (a v : Byte) : (s.memWrite a v).fl = s.fl := rfl
@[simp] theorem State.memWrite_link (a v : Byte) : (s.memWrite a v).link = s.link := rfl
@[simp] theorem State.memWrite_halt (a v : Byte) : (s.memWrite a v).halt = s.halt := rfl
@[simp] theorem State.memWrite_fault (a v : Byte) : (s.memWrite a v).fault = s.fault := rfl
@[simp] theorem State.memWrite_out (a v : Byte) : (s.memWrite a v).out = s.out := rfl
@[simp] theorem State.memWrite_loaded (a v : Byte) : (s.memWrite a v).loaded = s.loaded := rfl
@[simp] theorem State.memWrite_reg (a v : Byte) (j : RegIndex) : (s.memWrite a v).reg j = s.reg j := rfl

/-! ### setPc -/

@[simp] theorem State.setPc_mem (t : Byte) : (s.setPc t).mem = s.mem := rfl
@[simp] theorem State.setPc_regs (t : Byte) : (s.setPc t).regs = s.regs := rfl
@[simp] theorem State.setPc_pc (t : Byte) : (s.setPc t).pc = t := rfl
@[simp] theorem State.setPc_fl (t : Byte) : (s.setPc t).fl = s.fl := rfl
@[simp] theorem State.setPc_link (t : Byte) : (s.setPc t).link = s.link := rfl
@[simp] theorem State.setPc_halt (t : Byte) : (s.setPc t).halt = s.halt := rfl
@[simp] theorem State.setPc_fault (t : Byte) : (s.setPc t).fault = s.fault := rfl
@[simp] theorem State.setPc_out (t : Byte) : (s.setPc t).out = s.out := rfl
@[simp] theorem State.setPc_loaded (t : Byte) : (s.setPc t).loaded = s.loaded := rfl
@[simp] theorem State.setPc_reg (t : Byte) (j : RegIndex) : (s.setPc t).reg j = s.reg j := rfl
@[simp] theorem State.setPc_memRead (t : Byte) (x : Byte) : (s.setPc t).memRead x = s.memRead x := rfl

/-! ### setFl -/

@[simp] theorem State.setFl_mem (f : Flags) : (s.setFl f).mem = s.mem := rfl
@[simp] theorem State.setFl_regs (f : Flags) : (s.setFl f).regs = s.regs := rfl
@[simp] theorem State.setFl_pc (f : Flags) : (s.setFl f).pc = s.pc := rfl
@[simp] theorem State.setFl_fl (f : Flags) : (s.setFl f).fl = f := rfl
@[simp] theorem State.setFl_link (f : Flags) : (s.setFl f).link = s.link := rfl
@[simp] theorem State.setFl_halt (f : Flags) : (s.setFl f).halt = s.halt := rfl
@[simp] theorem State.setFl_fault (f : Flags) : (s.setFl f).fault = s.fault := rfl
@[simp] theorem State.setFl_out (f : Flags) : (s.setFl f).out = s.out := rfl
@[simp] theorem State.setFl_loaded (f : Flags) : (s.setFl f).loaded = s.loaded := rfl
@[simp] theorem State.setFl_reg (f : Flags) (j : RegIndex) : (s.setFl f).reg j = s.reg j := rfl
@[simp] theorem State.setFl_memRead (f : Flags) (x : Byte) : (s.setFl f).memRead x = s.memRead x := rfl

/-! ### setLink -/

@[simp] theorem State.setLink_mem (l : Option Byte) : (s.setLink l).mem = s.mem := rfl
@[simp] theorem State.setLink_regs (l : Option Byte) : (s.setLink l).regs = s.regs := rfl
@[simp] theorem State.setLink_pc (l : Option Byte) : (s.setLink l).pc = s.pc := rfl
@[simp] theorem State.setLink_fl (l : Option Byte) : (s.setLink l).fl = s.fl := rfl
@[simp] theorem State.setLink_link (l : Option Byte) : (s.setLink l).link = l := rfl
@[simp] theorem State.setLink_halt (l : Option Byte) : (s.setLink l).halt = s.halt := rfl
@[simp] theorem State.setLink_fault (l : Option Byte) : (s.setLink l).fault = s.fault := rfl
@[simp] theorem State.setLink_out (l : Option Byte) : (s.setLink l).out = s.out := rfl
@[simp] theorem State.setLink_loaded (l : Option Byte) : (s.setLink l).loaded = s.loaded := rfl
@[simp] theorem State.setLink_reg (l : Option Byte) (j : RegIndex) : (s.setLink l).reg j = s.reg j := rfl
@[simp] theorem State.setLink_memRead (l : Option Byte) (x : Byte) : (s.setLink l).memRead x = s.memRead x := rfl

/-! ### setHalt -/

@[simp] theorem State.setHalt_mem : s.setHalt.mem = s.mem := rfl
@[simp] theorem State.setHalt_regs : s.setHalt.regs = s.regs := rfl
@[simp] theorem State.setHalt_pc : s.setHalt.pc = s.pc := rfl
@[simp] theorem State.setHalt_fl : s.setHalt.fl = s.fl := rfl
@[simp] theorem State.setHalt_link : s.setHalt.link = s.link := rfl
@[simp] theorem State.setHalt_halt : s.setHalt.halt = true := rfl
@[simp] theorem State.setHalt_fault : s.setHalt.fault = s.fault := rfl
@[simp] theorem State.setHalt_out : s.setHalt.out = s.out := rfl
@[simp] theorem State.setHalt_loaded : s.setHalt.loaded = s.loaded := rfl
@[simp] theorem State.setHalt_reg (j : RegIndex) : s.setHalt.reg j = s.reg j := rfl
@[simp] theorem State.setHalt_memRead (x : Byte) : s.setHalt.memRead x = s.memRead x := rfl

/-! ### emit -/

@[simp] theorem State.emit_mem (v : Byte) : (s.emit v).mem = s.mem := rfl
@[simp] theorem State.emit_regs (v : Byte) : (s.emit v).regs = s.regs := rfl
@[simp] theorem State.emit_pc (v : Byte) : (s.emit v).pc = s.pc := rfl
@[simp] theorem State.emit_fl (v : Byte) : (s.emit v).fl = s.fl := rfl
@[simp] theorem State.emit_link (v : Byte) : (s.emit v).link = s.link := rfl
@[simp] theorem State.emit_halt (v : Byte) : (s.emit v).halt = s.halt := rfl
@[simp] theorem State.emit_fault (v : Byte) : (s.emit v).fault = s.fault := rfl
@[simp] theorem State.emit_out (v : Byte) : (s.emit v).out = s.out ++ [v] := rfl
@[simp] theorem State.emit_loaded (v : Byte) : (s.emit v).loaded = s.loaded := rfl
@[simp] theorem State.emit_reg (v : Byte) (j : RegIndex) : (s.emit v).reg j = s.reg j := rfl
@[simp] theorem State.emit_memRead (v : Byte) (x : Byte) : (s.emit v).memRead x = s.memRead x := rfl

/-! ### raise -/

@[simp] theorem State.raise_mem (c : FaultCause) (ir : Byte) : (s.raise c ir).mem = s.mem := rfl
@[simp] theorem State.raise_regs (c : FaultCause) (ir : Byte) : (s.raise c ir).regs = s.regs := rfl
@[simp] theorem State.raise_pc (c : FaultCause) (ir : Byte) : (s.raise c ir).pc = s.pc := rfl
@[simp] theorem State.raise_fl (c : FaultCause) (ir : Byte) : (s.raise c ir).fl = s.fl := rfl
@[simp] theorem State.raise_link (c : FaultCause) (ir : Byte) : (s.raise c ir).link = s.link := rfl
@[simp] theorem State.raise_halt (c : FaultCause) (ir : Byte) : (s.raise c ir).halt = s.halt := rfl
@[simp] theorem State.raise_fault (c : FaultCause) (ir : Byte) : (s.raise c ir).fault = some { cause := c, pc := s.pc, ir := ir } := rfl
@[simp] theorem State.raise_out (c : FaultCause) (ir : Byte) : (s.raise c ir).out = s.out := rfl
@[simp] theorem State.raise_loaded (c : FaultCause) (ir : Byte) : (s.raise c ir).loaded = s.loaded := rfl
@[simp] theorem State.raise_reg (c : FaultCause) (ir : Byte) (j : RegIndex) : (s.raise c ir).reg j = s.reg j := rfl
@[simp] theorem State.raise_memRead (c : FaultCause) (ir : Byte) (x : Byte) : (s.raise c ir).memRead x = s.memRead x := rfl

/-! ### loopUpdate: every field but the PC -/

@[simp] theorem State.loopUpdate_mem (ir : Byte) : (s.loopUpdate ir).mem = s.mem := by
  unfold State.loopUpdate; split <;> rfl
@[simp] theorem State.loopUpdate_regs (ir : Byte) : (s.loopUpdate ir).regs = s.regs := by
  unfold State.loopUpdate; split <;> rfl
@[simp] theorem State.loopUpdate_fl (ir : Byte) : (s.loopUpdate ir).fl = s.fl := by
  unfold State.loopUpdate; split <;> rfl
@[simp] theorem State.loopUpdate_link (ir : Byte) : (s.loopUpdate ir).link = s.link := by
  unfold State.loopUpdate; split <;> rfl
@[simp] theorem State.loopUpdate_halt (ir : Byte) : (s.loopUpdate ir).halt = s.halt := by
  unfold State.loopUpdate; split <;> rfl
@[simp] theorem State.loopUpdate_fault (ir : Byte) : (s.loopUpdate ir).fault = s.fault := by
  unfold State.loopUpdate; split <;> rfl
@[simp] theorem State.loopUpdate_out (ir : Byte) : (s.loopUpdate ir).out = s.out := by
  unfold State.loopUpdate; split <;> rfl
@[simp] theorem State.loopUpdate_loaded (ir : Byte) : (s.loopUpdate ir).loaded = s.loaded := by
  unfold State.loopUpdate; split <;> rfl
@[simp] theorem State.loopUpdate_reg (ir : Byte) (j : RegIndex) : (s.loopUpdate ir).reg j = s.reg j := by
  unfold State.loopUpdate; split <;> rfl
@[simp] theorem State.loopUpdate_memRead (ir x : Byte) : (s.loopUpdate ir).memRead x = s.memRead x := by
  unfold State.loopUpdate; split <;> rfl

/-- The PC after the loop's update (40_execution_loop R76). -/
theorem State.loopUpdate_pc (ir : Byte) :
    (s.loopUpdate ir).pc = if setsPc ir then s.pc else s.pc + BitVec.ofNat 8 (opSize ir + 1) := by
  unfold State.loopUpdate; split <;> rfl

end Sys2Proof.Machine
end

