-- ==== Sys2Proof/Laws/Ops.lean ====
section
/-! SUPPORT. What each shared operation of a step can do, said once. -/

namespace Sys2Proof.Machine

open Sys2Proof

/-- A register read after a register write. -/
theorem State.reg_setReg (s : State) (i j : RegIndex) (v : Byte) :
    (s.setReg i v).reg j = if j = i then v else s.reg j := by
  simp only [State.reg, State.setReg, Fin.getElem_fin, Vector.getElem_set, Fin.ext_iff, eq_comm]

/-- A byte up to 7 names the register of its value (30_encoding R56). -/
theorem regIndex_of_lt {b : Byte} (h : b.toNat < 8) : regIndex Config.regIndexCheck b = some ⟨b.toNat, h⟩ := by
  simp [regIndex, Config.regIndexCheck, h]

/-- A byte above 7 names none (30_encoding R56). -/
theorem regIndex_of_ge {b : Byte} (h : 8 ≤ b.toNat) : regIndex Config.regIndexCheck b = none := by
  simp [regIndex, Config.regIndexCheck, Nat.not_lt.mpr h]

theorem withReg_of_lt {m : Mnemonic} {o : Operand} {b : Byte} {s : State} {k : RegIndex → Result}
    (h : b.toNat < 8) : withReg m o b s k = k ⟨b.toNat, h⟩ := by
  simp [withReg, regIndex_of_lt h]

theorem withReg_of_ge {m : Mnemonic} {o : Operand} {b : Byte} {s : State} {k : RegIndex → Result}
    (h : 8 ≤ b.toNat) : withReg m o b s k = .next (s.raise (.invalidRegister b o) (opcodeMap m)) := by
  simp [withReg, regIndex_of_ge h]

/-- All that a register operand can do: go on with the register it names, or take InvalidRegister. -/
theorem withReg_cases {m : Mnemonic} {o : Operand} {b : Byte} {s t : State} {k : RegIndex → Result}
    (h : withReg m o b s k = .next t) :
    (∃ hb : b.toNat < 8, k ⟨b.toNat, hb⟩ = .next t) ∨
      (8 ≤ b.toNat ∧ t = s.raise (.invalidRegister b o) (opcodeMap m)) := by
  by_cases hb : b.toNat < 8
  · rw [withReg_of_lt hb] at h
    exact .inl ⟨hb, h⟩
  · rw [withReg_of_ge (Nat.le_of_not_lt hb), Host.Outcome.next.injEq] at h
    exact .inr ⟨Nat.le_of_not_lt hb, h.symm⟩

/-- The end of a handler answers the state with the loop's PC update, and nothing else. -/
theorem finish_cases {m : Mnemonic} {s t : State} (h : finish m s = .next t) : t = s.loopUpdate (opcodeMap m) := by
  simpa [finish, eq_comm] using h

/-- The first fetched byte is the one at the PC. -/
theorem State.fetchByte_zero (s : State) : s.fetchByte 0 = s.memRead s.pc := by
  simp [State.fetchByte]

/-- Fetch and decode, by the three bytes read (40_execution_loop R73). -/
theorem State.fetchDecode_eq (s : State) :
    s.fetchDecode = decode (s.memRead s.pc) (s.memRead (s.pc + 1)) (s.memRead (s.pc + 2)) := by
  unfold State.fetchDecode
  rw [State.fetchByte_zero]
  rfl

/-- A step exists exactly in a loaded, running core (40_execution_loop R70, 70_reset_and_hazards R151). -/
theorem State.noStep_eq_none {s : State} :
    s.noStep = none ↔ s.loaded = true ∧ s.halt = false ∧ s.fault = none := by
  unfold State.noStep State.runState
  cases hf : s.fault <;> cases hh : s.halt <;> cases hl : s.loaded <;> simp

/-- All that a step answering a next state can have done: run the decoded instruction, or reject the opcode byte. -/
theorem step_cases {s t : State} (h : step s = .next t) :
    s.noStep = none ∧
      ((∃ i, s.fetchDecode = .ok i ∧ exec i s = .next t) ∨
        (lookupOpcode (s.fetchByte 0) = none ∧
          t = s.undefinedOpcode (s.fetchByte 0) Config.unknownOpcode)) := by
  unfold step at h
  split at h
  · cases h
  · rename_i hn
    refine ⟨hn, ?_⟩
    obtain ⟨m, -, hd⟩ | ⟨hno, hd⟩ := decode_cases (s.fetchByte 0) (s.fetchByte 1) (s.fetchByte 2)
    · rw [State.fetchDecode, hd] at h
      exact .inl ⟨_, by rw [State.fetchDecode, hd], h⟩
    · rw [State.fetchDecode, hd] at h
      simp only [rejectOpcode, Host.Outcome.next.injEq] at h
      exact .inr ⟨hno, h.symm⟩

end Sys2Proof.Machine
end

