-- ==== Sys2Proof/Laws/Exec.lean ====
section
/-! SUPPORT. All that an instruction can do, said once: take InvalidRegister, take InvalidReturn, or have its own effect
in terms of the shared operations. -/

namespace Sys2Proof.Machine

open Sys2Proof

/-- The next states `exec` can answer for an instruction in state `s`. -/
inductive ExecEffect (s : State) : Instr → State → Prop where
  | badRegister {i : Instr} {b : Byte} {o : Operand} (hb : 8 ≤ b.toNat) (hi : i.wellFormed = false)
      (ho : i.operandBytes[if o = .a then 0 else 1]? = some b) :
      ExecEffect s i (s.raise (.invalidRegister b o) (opcodeMap i.mnemonic))
  | noLink (hl : s.link = none) : ExecEffect s .ret (s.raise .invalidReturn (opcodeMap .ret))
  | hlt : ExecEffect s .hlt (s.setHalt.loopUpdate (opcodeMap .hlt))
  | ldi {r v : Byte} (hr : r.toNat < 8) :
      ExecEffect s (.ldi r v) ((s.setReg ⟨r.toNat, hr⟩ v).loopUpdate (opcodeMap .ldi))
  | prn {r : Byte} (hr : r.toNat < 8) :
      ExecEffect s (.prn r) ((s.emit (s.reg ⟨r.toNat, hr⟩)).loopUpdate (opcodeMap .prn))
  | mul {a b : Byte} (ha : a.toNat < 8) (hb : b.toNat < 8) :
      ExecEffect s (.mul a b) ((s.setReg ⟨a.toNat, ha⟩
        (aluMul (s.reg ⟨a.toNat, ha⟩) (s.reg ⟨b.toNat, hb⟩))).loopUpdate (opcodeMap .mul))
  | add {a b : Byte} (ha : a.toNat < 8) (hb : b.toNat < 8) :
      ExecEffect s (.add a b) ((s.setReg ⟨a.toNat, ha⟩
        (aluAdd (s.reg ⟨a.toNat, ha⟩) (s.reg ⟨b.toNat, hb⟩))).loopUpdate (opcodeMap .add))
  | cmp {a b : Byte} (ha : a.toNat < 8) (hb : b.toNat < 8) :
      ExecEffect s (.cmp a b) ((s.setFl
        (aluCmp (s.reg ⟨a.toNat, ha⟩) (s.reg ⟨b.toNat, hb⟩))).loopUpdate (opcodeMap .cmp))
  | push {r : Byte} (hr : r.toNat < 8) :
      ExecEffect s (.push r) (((s.setReg Config.spIndex s.pushAddr).memWrite s.pushAddr
        ((s.setReg Config.spIndex s.pushAddr).reg ⟨r.toNat, hr⟩)).loopUpdate (opcodeMap .push))
  | pop {r : Byte} (hr : r.toNat < 8) :
      ExecEffect s (.pop r) ((((s.setReg ⟨r.toNat, hr⟩ (s.memRead s.popAddr)).memWrite s.popAddr 0).setReg Config.spIndex
        ((s.setReg ⟨r.toNat, hr⟩ (s.memRead s.popAddr)).reg Config.spIndex + 1)).loopUpdate (opcodeMap .pop))
  | call {r : Byte} (hr : r.toNat < 8) :
      ExecEffect s (.call r) ((s.setLink (some (s.pc + 2))).setPc (s.reg ⟨r.toNat, hr⟩))
  | ret {a : Byte} (hl : s.link = some a) : ExecEffect s .ret ((s.setPc a).setLink none)
  | jmp {r : Byte} (hr : r.toNat < 8) : ExecEffect s (.jmp r) (s.setPc (s.reg ⟨r.toNat, hr⟩))
  | jeq {r : Byte} (hr : r.toNat < 8) :
      ExecEffect s (.jeq r) (s.setPc (if equalSet s.fl then s.reg ⟨r.toNat, hr⟩ else s.pc + 2))
  | jne {r : Byte} (hr : r.toNat < 8) :
      ExecEffect s (.jne r) (s.setPc (if equalSet s.fl then s.pc + 2 else s.reg ⟨r.toNat, hr⟩))

theorem wellFormed_eq_false {i : Instr} {b : Byte} (h : b ∈ i.registerBytes) (hb : 8 ≤ b.toNat) :
    i.wellFormed = false := by
  by_contra hw
  have := List.all_eq_true.mp (Bool.eq_true_of_not_eq_false hw) b h
  simp only [decide_eq_true_eq] at this
  omega

/-- The effect of a one-register instruction, from the effect on the register it names. -/
theorem ExecEffect.ofReg {i : Instr} {b : Byte} {s t : State} {k : RegIndex → Result}
    (h : withReg i.mnemonic .a b s k = .next t) (hb : b ∈ i.registerBytes) (ho : i.operandBytes[0]? = some b)
    (hk : ∀ hr : b.toNat < 8, k ⟨b.toNat, hr⟩ = .next t → ExecEffect s i t) : ExecEffect s i t := by
  obtain ⟨hr, h'⟩ | ⟨hge, rfl⟩ := withReg_cases h
  · exact hk hr h'
  · exact .badRegister hge (wellFormed_eq_false hb hge) ho

/-- The effect of a two-register instruction, from the effect on the registers it names. -/
theorem ExecEffect.ofRegs {i : Instr} {a b : Byte} {s t : State} {k : RegIndex → RegIndex → Result}
    (h : (withReg i.mnemonic .a a s fun x => withReg i.mnemonic .b b s (k x)) = .next t)
    (hreg : i.registerBytes = [a, b]) (hop : i.operandBytes = [a, b])
    (hk : ∀ (ha : a.toNat < 8) (hb : b.toNat < 8), k ⟨a.toNat, ha⟩ ⟨b.toNat, hb⟩ = .next t → ExecEffect s i t) :
    ExecEffect s i t := by
  refine ExecEffect.ofReg h (by simp [hreg]) (by simp [hop]) fun ha h' => ?_
  obtain ⟨hb, h''⟩ | ⟨hge, rfl⟩ := withReg_cases h'
  · exact hk ha hb h''
  · exact .badRegister hge (wellFormed_eq_false (by simp [hreg]) hge) (by simp [hop])

/-- What `exec` answers is one of the effects. -/
theorem exec_effect {i : Instr} {s t : State} (h : exec i s = .next t) : ExecEffect s i t := by
  cases i with
  | hlt => exact finish_cases h ▸ .hlt
  | ldi r v => exact .ofReg (i := .ldi r v) h (by simp [Instr.registerBytes]) rfl fun hr h => finish_cases h ▸ .ldi hr
  | prn r => exact .ofReg (i := .prn r) h (by simp [Instr.registerBytes]) rfl fun hr h => finish_cases h ▸ .prn hr
  | mul a b => exact .ofRegs (i := .mul a b) h rfl rfl fun ha hb h => finish_cases h ▸ .mul ha hb
  | add a b => exact .ofRegs (i := .add a b) h rfl rfl fun ha hb h => finish_cases h ▸ .add ha hb
  | cmp a b => exact .ofRegs (i := .cmp a b) h rfl rfl fun ha hb h => finish_cases h ▸ .cmp ha hb
  | push r => exact .ofReg (i := .push r) h (by simp [Instr.registerBytes]) rfl fun hr h => finish_cases h ▸ .push hr
  | pop r => exact .ofReg (i := .pop r) h (by simp [Instr.registerBytes]) rfl fun hr h => finish_cases h ▸ .pop hr
  | call r => exact .ofReg (i := .call r) h (by simp [Instr.registerBytes]) rfl fun hr h => finish_cases h ▸ .call hr
  | ret =>
    simp only [exec, execRet] at h
    split at h
    · exact finish_cases h ▸ .ret ‹_›
    · exact (Host.Outcome.next.inj h) ▸ .noLink ‹_›
  | jmp r => exact .ofReg (i := .jmp r) h (by simp [Instr.registerBytes]) rfl fun hr h => finish_cases h ▸ .jmp hr
  | jeq r => exact .ofReg (i := .jeq r) h (by simp [Instr.registerBytes]) rfl fun hr h => finish_cases h ▸ .jeq hr
  | jne r => exact .ofReg (i := .jne r) h (by simp [Instr.registerBytes]) rfl fun hr h => finish_cases h ▸ .jne hr

end Sys2Proof.Machine
end

