-- ==== Sys2Proof/Laws/Memory.lean ====
section
/-! SUPPORT. What memory operations do to every byte, and that each keeps the canonical form. -/

namespace Sys2Proof.Machine

open Sys2Proof

theorem Memory.lookup_of_not_listed {m : Memory} {k : Nat} (h : ∀ c ∈ m, c.1 ≠ k) :
    m.lookup k = Memory.unlisted := by
  induction m with
  | nil => rfl
  | cons c m ih =>
    simp only [List.mem_cons, forall_eq_or_imp] at h
    simp [Memory.lookup, h.1, ih h.2]

theorem Memory.lookup_erase (m : Memory) (k j : Nat) :
    (m.erase k).lookup j = if j = k then Memory.unlisted else m.lookup j := by
  induction m with
  | nil => simp [Memory.erase, Memory.lookup]
  | cons c m ih =>
    unfold Memory.erase at ih ⊢
    by_cases hk : c.1 = k <;> by_cases hj : c.1 = j <;> by_cases hjk : j = k <;>
      simp_all [Memory.lookup]

theorem Memory.lookup_insertCell (k : Nat) (v : Byte) (m : Memory) (j : Nat) (h : ∀ c ∈ m, c.1 ≠ k) :
    (Memory.insertCell k v m).lookup j = if j = k then v else m.lookup j := by
  induction m with
  | nil => simp [Memory.insertCell, Memory.lookup, eq_comm]
  | cons c m ih =>
    simp only [List.mem_cons, forall_eq_or_imp] at h
    by_cases hlt : k < c.1
    · simp [Memory.insertCell, hlt, Memory.lookup, eq_comm]
    · simp only [Memory.insertCell, hlt, if_false, Memory.lookup, ih h.2]
      by_cases hc : c.1 = j
      · simp [hc, show j ≠ k from hc ▸ h.1]
      · simp [hc]

theorem Memory.not_mem_erase (m : Memory) (k : Nat) : ∀ c ∈ m.erase k, c.1 ≠ k := by
  simp [Memory.erase]

/-- A byte read after a write: the value written at its address, the old byte everywhere else (20_memory R33, R34). -/
theorem Memory.read_write (m : Memory) (a v x : Byte) :
    (m.write a v).read x = if x = a then v else m.read x := by
  have hx : x.toNat = a.toNat ↔ x = a := BitVec.toNat_inj
  unfold Memory.write Memory.read
  split
  · rename_i hv
    simp [Memory.lookup_erase, hx, hv]
  · simp only [Memory.lookup_insertCell _ _ _ _ (Memory.not_mem_erase m _), Memory.lookup_erase, hx]
    by_cases h : x = a <;> simp [h]

theorem Memory.wf_erase {m : Memory} (h : m.wf) (k : Nat) : (m.erase k).wf :=
  ⟨h.1.filter _, fun c hc => h.2 c (List.mem_filter.mp hc).1⟩

theorem Memory.mem_insertCell {k : Nat} {v : Byte} {m : Memory} {c : Host.Cell} :
    c ∈ Memory.insertCell k v m ↔ c = (k, v) ∨ c ∈ m := by
  induction m with
  | nil => simp [Memory.insertCell]
  | cons d m ih =>
    by_cases hlt : k < d.1
    · simp [Memory.insertCell, hlt]
    · simp only [Memory.insertCell, hlt, if_false, List.mem_cons, ih]
      tauto

theorem Memory.wf_insertCell {k : Nat} {v : Byte} {m : Memory} (h : m.wf) (hk : k < Config.memSize)
    (hv : v ≠ Memory.unlisted) (hm : ∀ c ∈ m, c.1 ≠ k) : (Memory.insertCell k v m).wf := by
  refine ⟨?_, fun c hc => ?_⟩
  · have hs := h.1
    clear h
    induction m with
    | nil => simp [Memory.insertCell]
    | cons d m ih =>
      simp only [List.mem_cons, forall_eq_or_imp] at hm
      obtain ⟨hd, hrest⟩ := List.pairwise_cons.mp hs
      by_cases hlt : k < d.1
      · simp only [Memory.insertCell, hlt, if_true]
        exact List.pairwise_cons.mpr
          ⟨fun c hc => by rcases List.mem_cons.mp hc with rfl | hc'
                          · exact hlt
                          · exact lt_trans hlt (hd c hc'), hs⟩
      · simp only [Memory.insertCell, hlt, if_false]
        refine List.pairwise_cons.mpr ⟨fun c hc => ?_, ih hm.2 hrest⟩
        rcases Memory.mem_insertCell.mp hc with rfl | hc'
        · have := hm.1
          simp only
          omega
        · exact hd c hc'
  · rcases Memory.mem_insertCell.mp hc with rfl | hc'
    · exact ⟨hk, hv⟩
    · exact h.2 c hc'

/-- A write keeps the canonical form. -/
theorem Memory.wf_write {m : Memory} (h : m.wf) (a v : Byte) : (m.write a v).wf := by
  unfold Memory.write
  split
  · exact Memory.wf_erase h _
  · rename_i hv
    exact Memory.wf_insertCell (Memory.wf_erase h _) a.isLt hv (Memory.not_mem_erase m _)

/-- A loaded image is in canonical form. -/
theorem Memory.wf_ofImage (image : Vector Byte 256) : (Memory.ofImage image).wf := by
  refine ⟨?_, fun c hc => ?_⟩
  · refine List.Pairwise.filterMap _ ?_ (List.pairwise_lt_finRange 256)
    intro a a' haa c hc d hd
    split at hc <;> split at hd <;> simp_all
    subst hc hd
    exact haa
  · obtain ⟨a, -, ha⟩ := List.mem_filterMap.mp hc
    split at ha
    · simp at ha
    · rename_i hne
      simp only [Option.some.injEq] at ha
      subst ha
      exact ⟨a.isLt, hne⟩

/-- The reset memory is in canonical form. -/
theorem State.reset_mem_wf : State.reset.mem.wf := by decide

/-- Every byte after a store through the state. -/
theorem State.memRead_memWrite (s : State) (a v x : Byte) :
    (s.memWrite a v).memRead x = if x = a then v else s.memRead x :=
  Memory.read_write s.mem a v x

end Sys2Proof.Machine
end

