-- ==== Sys2Proof/Laws/PerInstr.lean ====
section
/-! SUPPORT. A statement for every instruction as syntax: its opcode byte's `op_size` field is the number of its operand bytes,
and its length is `op_size + 1` (30_encoding R51, R52, R59 a). -/

/-- The `op_size` field of an instruction's opcode byte counts its operand bytes, and its length is one more. -/
def Sys2Proof.Laws.OpcodeFields.Statement (i : Sys2Proof.Instr) : Prop :=
  Sys2Proof.opSize (Sys2Proof.opcodeMap i.mnemonic) = i.operandBytes.length ∧
    (Sys2Proof.encode i).length = Sys2Proof.opSize (Sys2Proof.opcodeMap i.mnemonic) + 1

namespace Sys2Proof.Laws.OpcodeFields

theorem hlt : Statement .hlt :=
  ⟨(by decide : opSize (opcodeMap .hlt) = 0), (by decide : 1 = opSize (opcodeMap .hlt) + 1)⟩
theorem ldi (r v : Byte) : Statement (.ldi r v) :=
  ⟨(by decide : opSize (opcodeMap .ldi) = 2), (by decide : 3 = opSize (opcodeMap .ldi) + 1)⟩
theorem prn (r : Byte) : Statement (.prn r) :=
  ⟨(by decide : opSize (opcodeMap .prn) = 1), (by decide : 2 = opSize (opcodeMap .prn) + 1)⟩
theorem mul (a b : Byte) : Statement (.mul a b) :=
  ⟨(by decide : opSize (opcodeMap .mul) = 2), (by decide : 3 = opSize (opcodeMap .mul) + 1)⟩
theorem add (a b : Byte) : Statement (.add a b) :=
  ⟨(by decide : opSize (opcodeMap .add) = 2), (by decide : 3 = opSize (opcodeMap .add) + 1)⟩
theorem cmp (a b : Byte) : Statement (.cmp a b) :=
  ⟨(by decide : opSize (opcodeMap .cmp) = 2), (by decide : 3 = opSize (opcodeMap .cmp) + 1)⟩
theorem push (r : Byte) : Statement (.push r) :=
  ⟨(by decide : opSize (opcodeMap .push) = 1), (by decide : 2 = opSize (opcodeMap .push) + 1)⟩
theorem pop (r : Byte) : Statement (.pop r) :=
  ⟨(by decide : opSize (opcodeMap .pop) = 1), (by decide : 2 = opSize (opcodeMap .pop) + 1)⟩
theorem call (r : Byte) : Statement (.call r) :=
  ⟨(by decide : opSize (opcodeMap .call) = 1), (by decide : 2 = opSize (opcodeMap .call) + 1)⟩
theorem ret : Statement .ret :=
  ⟨(by decide : opSize (opcodeMap .ret) = 0), (by decide : 1 = opSize (opcodeMap .ret) + 1)⟩
theorem jmp (r : Byte) : Statement (.jmp r) :=
  ⟨(by decide : opSize (opcodeMap .jmp) = 1), (by decide : 2 = opSize (opcodeMap .jmp) + 1)⟩
theorem jeq (r : Byte) : Statement (.jeq r) :=
  ⟨(by decide : opSize (opcodeMap .jeq) = 1), (by decide : 2 = opSize (opcodeMap .jeq) + 1)⟩
theorem jne (r : Byte) : Statement (.jne r) :=
  ⟨(by decide : opSize (opcodeMap .jne) = 1), (by decide : 2 = opSize (opcodeMap .jne) + 1)⟩

end Sys2Proof.Laws.OpcodeFields
end

