-- ==== Sys2Proof/Tests/Slice0.lean ====
section
/-! SUPPORT. The model's own tests: words written out from 30_encoding, single steps from 95_test_vectors, the
well-formedness smoke, and for every obligation with hypotheses a state and operands that meet them. -/

namespace Sys2Proof.Tests

open Sys2Proof Sys2Proof.Machine

/-! ### Helpers -/

/-- The reset state with an image of zeros loaded (the start state of 95_test_vectors). -/
abbrev start : State := { State.reset with loaded := true }

/-- Bytes at consecutive addresses from the PC, modulo 256. -/
def putBytes (s : State) : List Byte → Byte → State
  | [], _ => s
  | b :: bs, k => putBytes (s.memWrite (s.pc + k) b) bs (k + 1)

/-- The state with its PC at `a` and bytes there. -/
abbrev State.at (s : State) (a : Byte) (bs : List Byte) : State := putBytes (s.setPc a) bs 0

/-- Whether an outcome is a next state with a property. -/
def nextIs (o : Result) (p : State → Bool) : Bool :=
  match o with
  | .next t => p t
  | _ => false

/-- Two steps. -/
def twice (s : State) : Result :=
  match step s with
  | .next t => step t
  | o => o

/-! ### Well-formedness: an ill-formed term for each check -/

theorem test_ill_formed_ldi : (Instr.ldi 8 0).wellFormed = false := by decide
theorem test_ill_formed_prn : (Instr.prn 0x10).wellFormed = false := by decide
theorem test_ill_formed_mul_a : (Instr.mul 8 0).wellFormed = false := by decide
theorem test_ill_formed_mul_b : (Instr.mul 0 8).wellFormed = false := by decide
theorem test_ill_formed_add_a : (Instr.add 0xFF 0).wellFormed = false := by decide
theorem test_ill_formed_add_b : (Instr.add 0 9).wellFormed = false := by decide
theorem test_ill_formed_cmp_a : (Instr.cmp 8 9).wellFormed = false := by decide
theorem test_ill_formed_cmp_b : (Instr.cmp 7 8).wellFormed = false := by decide
theorem test_ill_formed_push : (Instr.push 0xFF).wellFormed = false := by decide
theorem test_ill_formed_pop : (Instr.pop 8).wellFormed = false := by decide
theorem test_ill_formed_call : (Instr.call 8).wellFormed = false := by decide
theorem test_ill_formed_jmp : (Instr.jmp 0x87).wellFormed = false := by decide
theorem test_ill_formed_jeq : (Instr.jeq 8).wellFormed = false := by decide
theorem test_ill_formed_jne : (Instr.jne 8).wellFormed = false := by decide
/-- LDI's immediate is not checked (T6, T7). -/
theorem test_well_formed_ldi_immediate : (Instr.ldi 7 0xFF).wellFormed = true := by decide

/-! ### Decoding: one word per constructor, bit by bit from 30_encoding R58 and R63 -/

theorem test_decode_hlt : decodeTableWord 8 0b00000001 = some .hlt := by decide
theorem test_decode_ldi : decodeTableWord 24 0b11111110_00000001_10000010 = some (.ldi 1 0xFE) := by decide
theorem test_decode_prn : decodeTableWord 16 0b00000111_01000111 = some (.prn 7) := by decide
theorem test_decode_mul : decodeTableWord 24 0b00000001_00000000_10100010 = some (.mul 0 1) := by decide
theorem test_decode_add : decodeTableWord 24 0b00000010_00000001_10100000 = some (.add 1 2) := by decide
theorem test_decode_cmp : decodeTableWord 24 0b00000011_00000001_10100111 = some (.cmp 1 3) := by decide
theorem test_decode_push : decodeTableWord 16 0b00000001_01000101 = some (.push 1) := by decide
theorem test_decode_pop : decodeTableWord 16 0b00000010_01000110 = some (.pop 2) := by decide
theorem test_decode_call : decodeTableWord 16 0b00000010_01010000 = some (.call 2) := by decide
theorem test_decode_ret : decodeTableWord 8 0b00010001 = some .ret := by decide
theorem test_decode_jmp : decodeTableWord 16 0b00000100_01010100 = some (.jmp 4) := by decide
theorem test_decode_jeq : decodeTableWord 16 0b00000010_01010101 = some (.jeq 2) := by decide
theorem test_decode_jne : decodeTableWord 16 0b00000100_01010110 = some (.jne 4) := by decide
/-- A table word of one byte leaves the operand bytes 0. -/
theorem test_decode_short_word : decodeTableWord 8 0x82 = some (.ldi 0 0) := by decide
/-- T100 to T105: bytes near a defined opcode, and `op_size` 3. -/
theorem test_decode_undefined : ([0x00, 0x02, 0x83, 0x51, 0xFF, 0xA1, 0xC0] : List Byte).map (fun b => decode b 0 0) =
    [.error (.invalidOpcode 0x00), .error (.invalidOpcode 0x02), .error (.invalidOpcode 0x83),
     .error (.invalidOpcode 0x51), .error (.invalidOpcode 0xFF), .error (.invalidOpcode 0xA1),
     .error (.invalidOpcode 0xC0)] := by rfl
/-- 30_encoding R60: 243 byte values are undefined. -/
theorem test_undefined_count :
    ((List.range 256).filter fun n => (lookupOpcode (BitVec.ofNat 8 n)).isNone).length = 243 := by decide +kernel

/-! ### Single steps, at most two per instruction (the numbers are 95_test_vectors') -/

/-- T1. -/
theorem test_hlt : nextIs (step (State.at start 0x0B [0x01])) (fun t =>
    t.halt && t.pc == 0x0C && t.runState == .halted) = true := by decide
/-- T2: the PC wraps. -/
theorem test_hlt_wraps : nextIs (step (State.at start 0xFF [0x01])) (fun t => t.halt && t.pc == 0x00) = true := by decide
/-- T5: the stack pointer is loaded. -/
theorem test_ldi_sp : nextIs (step (State.at start 0 [0x82, 0x07, 0x20])) (fun t =>
    t.reg 7 == 0x20 && t.pc == 3 && t.fl == 0) = true := by decide
/-- P7's third step: the immediate is fetched across 0xFF. -/
theorem test_ldi_across_top : nextIs (step (State.at start 0xFE [0x82, 0x00, 0x82])) (fun t =>
    t.reg 0 == 0x82 && t.pc == 1) = true := by decide
/-- T8. -/
theorem test_prn : nextIs (step (State.at (start.setReg 0 72) 9 [0x47, 0x00])) (fun t =>
    t.out == [72] && t.pc == 0x0B) = true := by decide
/-- T10. -/
theorem test_prn_sp : nextIs (step (State.at start 0 [0x47, 0x07])) (fun t => t.out == [243]) = true := by decide
/-- T31: the high byte is lost. -/
theorem test_mul_wraps : nextIs (step (State.at ((start.setReg 0 0xFF).setReg 1 0xFF) 0 [0xA2, 0x00, 0x01])) (fun t =>
    t.reg 0 == 0x01 && t.reg 1 == 0xFF && t.pc == 3) = true := by decide
/-- T36: the same register twice. -/
theorem test_mul_square : nextIs (step (State.at (start.setReg 3 13) 0 [0xA2, 0x03, 0x03])) (fun t =>
    t.reg 3 == 169) = true := by decide
/-- T20, the source's example 255 + 2 = 1. -/
theorem test_add_wraps : nextIs (step (State.at ((start.setReg 0 255).setReg 1 2) 0 [0xA0, 0x00, 0x01])) (fun t =>
    t.reg 0 == 1 && t.reg 1 == 2 && t.fl == 0) = true := by decide
/-- T27: operand order. -/
theorem test_add_order : nextIs (step (State.at ((start.setReg 0 3).setReg 1 0x10) 0 [0xA0, 0x01, 0x00])) (fun t =>
    t.reg 1 == 0x13 && t.reg 0 == 3) = true := by decide
/-- T45: unsigned. -/
theorem test_cmp_unsigned : nextIs (step (State.at ((start.setReg 0 0x80).setReg 1 0x7F) 0 [0xA7, 0x00, 0x01])) (fun t =>
    t.fl == 0b010 && t.pc == 3) = true := by decide
/-- T47: overwritten as a whole. -/
theorem test_cmp_overwrites :
    nextIs (step (State.at (((start.setReg 0 1).setReg 1 2).setFl 0b010) 0 [0xA7, 0x00, 0x01])) (fun t =>
    t.fl == 0b100) = true := by decide
/-- T62: SP wraps down. -/
theorem test_push_wraps : nextIs (step (State.at ((start.setReg 7 0).setReg 0 0xAB) 0x10 [0x45, 0x00])) (fun t =>
    t.reg 7 == 0xFF && t.memRead 0xFF == 0xAB && t.pc == 0x12) = true := by decide
/-- T66: PUSH R7 stores the decremented SP. -/
theorem test_push_sp : nextIs (step (State.at start 0 [0x45, 0x07])) (fun t =>
    t.reg 7 == 0xF2 && t.memRead 0xF2 == 0xF2) = true := by decide
/-- T63: SP wraps up, and the cell is zeroed. -/
theorem test_pop_wraps :
    nextIs (step (State.at ((start.setReg 7 0xFF).memWrite 0xFF 0xAB) 0x10 [0x46, 0x01])) (fun t =>
    t.reg 1 == 0xAB && t.memRead 0xFF == 0 && t.reg 7 == 0) = true := by decide
/-- T68: POP R7 zeroes the cell read, not the cell R7 then names. -/
theorem test_pop_sp :
    nextIs (step (State.at ((start.memWrite 0xF3 0x20).memWrite 0x20 0x99) 0 [0x46, 0x07])) (fun t =>
    t.reg 7 == 0x21 && t.memRead 0xF3 == 0 && t.memRead 0x20 == 0x99) = true := by decide
/-- T81: the old link is lost. -/
theorem test_call_overwrites :
    nextIs (step (State.at ((start.setReg 1 0x11).setLink (some 8)) 0x0E [0x50, 0x01])) (fun t =>
    t.link == some 0x10 && t.pc == 0x11 && t.reg 7 == 0xF3) = true := by decide
/-- T82: the operand byte and the link wrap. -/
theorem test_call_wraps : nextIs (step (State.at (start.setReg 0 0x30) 0xFF [0x50, 0x00])) (fun t =>
    t.link == some 1 && t.pc == 0x30) = true := by decide
/-- T83. -/
theorem test_ret : nextIs (step (State.at (start.setLink (some 8)) 0x15 [0x11])) (fun t =>
    t.pc == 8 && t.link == none) = true := by decide
/-- T84, T113: no link. -/
theorem test_ret_no_link : nextIs (step (State.at start 0 [0x11])) (fun t =>
    t.fault == some { cause := .invalidReturn, pc := 0, ir := 0x11 } && t.pc == 0 && t.runState == .faulted) = true := by
  decide
/-- T85. -/
theorem test_jmp : nextIs (step (State.at (start.setReg 4 0x0F) 0x20 [0x54, 0x04])) (fun t => t.pc == 0x0F) = true := by
  decide
/-- T87. -/
theorem test_jeq_taken : nextIs (step (State.at ((start.setReg 2 0x40).setFl 0b001) 9 [0x55, 0x02])) (fun t =>
    t.pc == 0x40) = true := by decide
/-- T95: not taken, across 0xFF. -/
theorem test_jeq_not_taken : nextIs (step (State.at ((start.setReg 2 0x40).setFl 0b100) 0xFF [0x55, 0x02])) (fun t =>
    t.pc == 0x01) = true := by decide
/-- T93: not taken. -/
theorem test_jne_not_taken : nextIs (step (State.at ((start.setReg 4 0x0F).setFl 0b001) 0x18 [0x56, 0x04])) (fun t =>
    t.pc == 0x1A) = true := by decide
/-- T94: taken with no flag set. -/
theorem test_jne_no_flag : nextIs (step (State.at (start.setReg 4 0x0F) 0x18 [0x56, 0x04])) (fun t =>
    t.pc == 0x0F) = true := by decide

/-! ### Faults, launch, the host's placing -/

/-- T100, P8: a loaded image of zeros faults at its first step. -/
theorem test_zero_byte_faults : nextIs (step start) (fun t =>
    decide (t = { start with fault := some { cause := .invalidOpcode, pc := 0, ir := 0 } })) = true := by decide
/-- T108: both operands bad, operand a reported. -/
theorem test_bad_pair : nextIs (step (State.at start 0 [0xA7, 0x08, 0x09])) (fun t =>
    t.fault == some { cause := .invalidRegister 8 .a, pc := 0, ir := 0xA7 } && t.fl == 0) = true := by decide
/-- T107: operand b. -/
theorem test_bad_operand_b : nextIs (step (State.at (start.setReg 0 1) 0 [0xA0, 0x00, 0x09])) (fun t =>
    t.fault == some { cause := .invalidRegister 9 .b, pc := 0, ir := 0xA0 } && t.reg 0 == 1) = true := by decide
/-- T109: checked although the jump would not be taken. -/
theorem test_bad_operand_of_untaken_jump : nextIs (step (State.at (start.setFl 0b100) 0 [0x55, 0x08])) (fun t =>
    t.fault == some { cause := .invalidRegister 8 .a, pc := 0, ir := 0x55 } && t.pc == 0) = true := by decide
/-- The codes of 60_exceptions R130. -/
theorem test_fault_codes : FaultCause.code .invalidOpcode = 1 ∧ FaultCause.code (.invalidRegister 8 .a) = 2 ∧
    FaultCause.code .invalidReturn = 3 := by decide
/-- T71: the byte pushed is what the next step fetches, HLT. -/
theorem test_push_then_fetch :
    nextIs (twice (State.at ((start.setReg 7 0x13).setReg 0 1) 0x10 [0x45, 0x00])) (fun t =>
    t.halt && t.pc == 0x13) = true := by decide
/-- The host's placing runs the instruction as the first after reset. -/
theorem test_with_fetch_word : nextIs (step (State.reset.withFetchWord 24 0xFE0182)) (fun t =>
    t.reg 1 == 0xFE && t.pc == 3) = true := by decide
/-- An image's nonzero cells are what is listed, in rising order. -/
theorem test_image_is_canonical :
    Memory.ofImage (((Vector.replicate 256 0).set 9 0x47).set 2 0x08) = [(2, 0x08), (9, 0x47)] := by decide +kernel

/-! ### Witnesses: states and operands that meet each obligation's hypotheses -/

/-- A state in which HALT is 1. -/
abbrev haltedState : State := start.setHalt

/-- A state with a fault record. -/
abbrev faultedState : State := start.raise .invalidReturn 0x11

/-- For every statement about a register byte below 8: LdiLoadsTheImmediate, PrnEmitsTheRegister,
MulMultipliesModulo256, AddAddsModulo256, CmpSetsOneFlag, AluIsAPureFunction, PushStoresBelowTheStackPointer,
PopReadsAndZeroesTheStackCell, PushThenPopRestores, CallSavesTheLink, JmpGoesToTheRegister, JeqIsTakenOnEqual,
JneIsTakenOnNotEqual, JumpsFollowTheMostRecentCompare, NestedCallsKeepOneLink. -/
theorem witness_lowest_and_highest_register : (0 : Byte).toNat < 8 ∧ (7 : Byte).toNat < 8 := by decide
/-- For BadRegisterByteFaults and the first clause of BadRegisterPairFaults. -/
theorem witness_lowest_and_highest_bad_byte : 8 ≤ (8 : Byte).toNat ∧ 8 ≤ (0xFF : Byte).toNat := by decide
theorem witness_EncodeOfDecodeIsTheBytesRead : decode 0x56 0x07 0x00 = .ok (.jne 7) := by rfl
theorem witness_UnusedOperandBytesAreIgnored :
    (decode 0x01 0x00 0x00 = .ok .hlt ∧ decode 0x01 0xFF 0xFF = .ok .hlt ∧ (0x01 : Byte).toNat / 64 = 0) ∧
    (decode 0x47 0x07 0x00 = .ok (.prn 7) ∧ decode 0x47 0x07 0xFF = .ok (.prn 7) ∧ (0x47 : Byte).toNat / 64 = 1) ∧
    (decode 0x82 0x00 0x00 = .ok (.ldi 0 0) ∧ decode 0x82 0x00 0xFF = .ok (.ldi 0 0xFF) ∧
      (0x82 : Byte).toNat / 64 = 2) := ⟨⟨rfl, rfl, rfl⟩, ⟨rfl, rfl, rfl⟩, ⟨rfl, rfl, rfl⟩⟩
theorem witness_SetsPcExactlyOnTransfers : decode 0x11 0x00 0x00 = .ok .ret ∧ decode 0x01 0x00 0x00 = .ok .hlt :=
  ⟨rfl, rfl⟩
/-- A loaded, running state at the top of memory with LDI across 0xFF. -/
abbrev topState : State := State.at start 0xFE [0x82, 0x00, 0x82]
theorem witness_StepRunsTheDecodedInstruction : topState.loaded = true ∧ topState.runState = .running ∧
    decode (topState.memRead topState.pc) (topState.memRead (topState.pc + 1)) (topState.memRead (topState.pc + 2)) =
      .ok (.ldi 0 0x82) := ⟨by decide, by decide, by rfl⟩
theorem witness_StoredInstructionRunsAtAnyAddress : topState.loaded = true ∧ topState.runState = .running ∧
    ∀ (k : Nat) (b : Byte), (encode (.ldi 0 0x82))[k]? = some b → topState.memRead (topState.pc + BitVec.ofNat 8 k) = b := by
  refine ⟨by decide, by decide, fun k b h => ?_⟩
  match k, h with
  | 0, h => simpa using (Option.some.inj h) ▸ (by decide : topState.memRead (topState.pc + 0) = 0x82)
  | 1, h => exact (Option.some.inj h) ▸ (by decide : topState.memRead (topState.pc + 1) = 0x00)
  | 2, h => exact (Option.some.inj h) ▸ (by decide : topState.memRead (topState.pc + 2) = 0x82)
  | k + 3, h => simp [encode, Instr.operandBytes] at h
theorem witness_StepDispatchesOnTheOpcodeByte : start.loaded = true ∧ start.runState = .running := by decide
theorem witness_StepExistsExactlyInALoadedRunningCore : (start.loaded = true ∧ start.runState = .running) ∧
    haltedState.runState = .halted ∧ faultedState.runState = .faulted ∧
    (State.reset.runState = .running ∧ State.reset.loaded = false) := by decide
theorem witness_PushThenPopCopies : (0 : Byte).toNat < 7 ∧ (6 : Byte).toNat < 7 := by decide
theorem witness_FetchSeesTheStoreAtOnce :
    (∃ t, exec (.push 0) (State.at (start.setReg 7 0x13) 0x10 []) = .next t ∧
      t.pc + 0 = (State.at (start.setReg 7 0x13) 0x10 []).pushAddr) ∧
    (∃ t, exec (.pop 0) (State.at (start.setReg 7 0x14) 0x10 []) = .next t ∧
      t.pc + 2 = (State.at (start.setReg 7 0x14) 0x10 []).popAddr) :=
  ⟨⟨_, rfl, by decide⟩, ⟨_, rfl, by decide⟩⟩
theorem witness_RetGoesToTheLink : (start.setLink (some 0xFF)).link = some 0xFF := by decide
theorem witness_RetWithoutLinkFaults : start.link = none := by decide
theorem witness_JeqAndJne_both_values_of_E :
    (start.setFl 0b001).fl.getLsbD 0 = true ∧ (start.setFl 0b110).fl.getLsbD 0 = false := by decide
theorem witness_CallAndRetDoNotUseTheStack :
    (∃ t, exec (.call 7) start = .next t) ∧ (∃ t, exec (.call 8) start = .next t) ∧
    (∃ t, exec .ret (start.setLink (some 0)) = .next t) := ⟨⟨_, rfl⟩, ⟨_, rfl⟩, ⟨_, rfl⟩⟩
theorem witness_BadRegisterPairFaults :
    8 ≤ (8 : Byte).toNat ∧ ((7 : Byte).toNat < 8 ∧ 8 ≤ (8 : Byte).toNat) := by decide
theorem witness_FaultsArePrecise : ∃ t f, step start = .next t ∧ t.fault = some f := ⟨_, _, rfl, rfl⟩
theorem witness_StepFaultsExactlyOnTheThreeConditions :
    (∃ t, step topState = .next t ∧ t.fault = none) ∧ (∃ t f, step start = .next t ∧ t.fault = some f) :=
  ⟨⟨_, rfl, rfl⟩, ⟨_, _, rfl, rfl⟩⟩
theorem witness_AlternativePolicies : (0x51 : Byte).getLsbD 4 = true ∧ (0xC0 : Byte).getLsbD 4 = false := by decide
theorem witness_FlagsBelongToCompareAndTheJumps :
    (∃ t, (∀ a b, Instr.hlt ≠ .cmp a b) ∧ exec .hlt start = .next t) ∧
    (∃ t, (∀ r, Instr.cmp 0 7 ≠ .jeq r ∧ Instr.cmp 0 7 ≠ .jne r) ∧ exec (.cmp 0 7) start = .next t) ∧
    (∃ t, (0b110 : Flags).getLsbD 0 = start.fl.getLsbD 0 ∧ exec (.jeq 0) start = .next t) :=
  ⟨⟨_, by simp, rfl⟩, ⟨_, by simp, rfl⟩, ⟨_, by decide, rfl⟩⟩
theorem witness_HaltBelongsToHltAndReset :
    (∃ t, Instr.ret ≠ .hlt ∧ exec .ret start = .next t) ∧
    (∃ t, event .step (State.at start 0 [0x01]) = .next t ∧ (State.at start 0 [0x01]).halt = false ∧ t.halt = true) ∧
    (∃ t, event .reset haltedState = .next t ∧ haltedState.halt = true ∧ t.halt = false) :=
  ⟨⟨_, by simp, rfl⟩, ⟨_, rfl, by decide, rfl⟩, ⟨_, rfl, rfl, rfl⟩⟩
theorem witness_OutputBelongsToPrn :
    (∃ t, (∀ r, Instr.hlt ≠ .prn r) ∧ exec .hlt start = .next t) ∧
    (∃ t, Event.step ≠ .reset ∧ event .step (State.at start 0 [0x47, 0x07]) = .next t) :=
  ⟨⟨_, by simp, rfl⟩, ⟨_, by simp, rfl⟩⟩
theorem witness_LinkBelongsToCallAndRet :
    ∃ t, Instr.hlt ≠ .ret ∧ (∀ r, Instr.hlt ≠ .call r) ∧ exec .hlt start = .next t := ⟨_, by simp, by simp, rfl⟩
theorem witness_MemoryFrame :
    (∃ t, exec (.push 0) start = .next t ∧ (0xF3 : Byte) ≠ start.pushAddr) ∧
    (∃ t, exec (.pop 0) start = .next t ∧ (0xF2 : Byte) ≠ start.popAddr) :=
  ⟨⟨_, rfl, by decide⟩, ⟨_, rfl, by decide⟩⟩
theorem witness_DataMemoryIsReachedOnlyThroughTheStack :
    (∃ t, (∀ r, Instr.hlt ≠ .push r ∧ Instr.hlt ≠ .pop r) ∧ exec .hlt start = .next t) ∧
    (∃ t, exec (.push 0) start = .next t) ∧
    (∃ t, Memory.read [(9, 5)] start.popAddr = start.memRead start.popAddr ∧ exec (.pop 0) start = .next t) :=
  ⟨⟨_, by simp, rfl⟩, ⟨_, rfl⟩, ⟨_, by decide, rfl⟩⟩
theorem witness_RegisterFrame : ∃ t, exec (.pop 0) start = .next t ∧ ((6 : Fin 8).val ≠ (0 : Byte).toNat ∧ (6 : Fin 8) ≠ 7) :=
  ⟨_, rfl, by decide⟩
theorem witness_OtherRegistersDoNotMatter : ∃ t, exec (.pop 0) start = .next t ∧
    (∀ b ∈ (Instr.pop 0).registerBytes, b.toNat ≠ (6 : Fin 8).val) ∧ (6 : Fin 8) ≠ 7 := ⟨_, rfl, by decide, by decide⟩
theorem witness_PcFollowsTheSetsPcBit :
    (∃ t, step topState = .next t ∧ t.fault = none ∧ (topState.memRead topState.pc).getLsbD 4 = false) ∧
    (∃ t, step (State.at start 0xFF [0x55, 0x02]) = .next t ∧ t.fault = none ∧
      ((State.at start 0xFF [0x55, 0x02]).memRead 0xFF).getLsbD 4 = true) :=
  ⟨⟨_, rfl, rfl, by decide⟩, ⟨_, rfl, rfl, by decide⟩⟩
theorem witness_LoadDefinesEveryCell : State.reset.loaded = false ∧ start.loaded = true := by decide
theorem witness_LaunchStartsAtAddressZero :
    ∃ i, decode ((Vector.replicate 256 (1 : Byte))[0]) ((Vector.replicate 256 (1 : Byte))[1])
      ((Vector.replicate 256 (1 : Byte))[2]) = .ok i := by
  simp only [Vector.getElem_replicate]
  exact ⟨.hlt, rfl⟩
theorem witness_OnlyResetLeavesHaltedAndFaulted :
    (∃ t, haltedState.loaded = true ∧ haltedState.runState ≠ .running ∧ event .reset haltedState = .next t) ∧
    (∃ t, faultedState.loaded = true ∧ faultedState.runState ≠ .running ∧ event .reset faultedState = .next t) :=
  ⟨⟨_, rfl, by decide, rfl⟩, ⟨_, rfl, by decide, rfl⟩⟩
theorem witness_RunStateTransitions :
    (∃ t, step (State.at start 0 [0x01]) = .next t) ∧ (∃ t, step start = .next t) ∧ (∃ t, step topState = .next t) :=
  ⟨⟨_, rfl⟩, ⟨_, rfl⟩, ⟨_, rfl⟩⟩
/-- The loaded state of zeros satisfies the invariant. -/
theorem start_inv : start.Inv :=
  ⟨by decide, by decide, by decide, fun r hr => by simp [State.reset] at hr, fun h => by cases h⟩
theorem witness_StepKeepsTheInvariant : start.Inv ∧ ∃ t, step start = .next t := ⟨start_inv, _, rfl⟩
/-- A state after a reset that left a byte in memory, before its image is loaded. -/
abbrev unloaded : State := { State.reset with mem := [(0, 1)] }
theorem unloaded_inv : unloaded.Inv :=
  ⟨by decide, by decide, by decide, fun r hr => by simp [State.reset] at hr, fun _ => rfl⟩
theorem witness_ResetAndLoadKeepTheInvariant :
    (start.Inv ∧ ∃ t, event .reset start = .next t) ∧
    (unloaded.Inv ∧ ∃ t, event (.load (Vector.replicate 256 0)) unloaded = .next t) :=
  ⟨⟨start_inv, _, rfl⟩, unloaded_inv, _, rfl⟩
theorem witness_ReachableRunStatesAndFlags : Reachable State.reset ∧ Reachable State.reset.resetEvent :=
  ⟨.reset, .event .reset .reset rfl⟩

end Sys2Proof.Tests
end

section
/-! PROOFS, 00_scope (R8). What an event can do to FL and to the two ends of a run (HALT and the fault record), and from
that what holds in every reachable state. -/

namespace Sys2Proof.Machine

open Sys2Proof

/-! ### What the run state reads -/

theorem State.runState_eq_faulted_iff {s : State} : s.runState = .faulted ↔ s.fault.isSome = true := by
  unfold State.runState
  cases s.fault <;> cases s.halt <;> simp

theorem State.runState_eq_halted_iff {s : State} : s.runState = .halted ↔ s.fault.isSome = false ∧ s.halt = true := by
  unfold State.runState
  cases s.fault <;> cases s.halt <;> simp

/-! ### What a step does to FL and to the two ends -/

/-- A compare leaves exactly one flag bit (42_alu R92). -/
theorem legalFlags_aluCmp (x y : Byte) : legalFlags (aluCmp x y) := by
  unfold aluCmp
  split
  · exact .inr (.inr (.inr rfl))
  · split
    · exact .inr (.inl rfl)
    · exact .inr (.inr (.inl rfl))

/-- Under the adopted policy an undefined opcode byte raises InvalidOpcode (30_encoding R60, decision D10). -/
@[simp] theorem State.undefinedOpcode_adopted (s : State) (ir : Byte) :
    s.undefinedOpcode ir Config.unknownOpcode = s.raise .invalidOpcode ir := rfl

/-- The instruction leaves FL as it was, or FL is the outcome of a compare (10_state R17). -/
theorem exec_fl {i : Instr} {s t : State} (h : exec i s = .next t) : t.fl = s.fl ∨ ∃ x y, t.fl = aluCmp x y := by
  cases exec_effect h with
  | cmp => exact .inr ⟨_, _, State.loopUpdate_fl _ _⟩
  | _ => exact .inl (by simp)

/-- No instruction both sets HALT and records a fault: HLT cannot fault, and a fault discards every effect (60_exceptions
R134). -/
theorem exec_halt_or_fault {i : Instr} {s t : State} (h : exec i s = .next t) : t.halt = s.halt ∨ t.fault = s.fault := by
  cases exec_effect h with
  | hlt => exact .inr (by simp)
  | _ => exact .inl (by simp)

theorem step_keeps_legalFlags {s t : State} (hfl : legalFlags s.fl) (h : step s = .next t) : legalFlags t.fl := by
  obtain ⟨-, ⟨i, -, hi⟩ | ⟨-, rfl⟩⟩ := step_cases h
  · obtain hsame | ⟨x, y, hcmp⟩ := exec_fl hi
    · exact hsame ▸ hfl
    · exact hcmp ▸ legalFlags_aluCmp x y
  · simpa using hfl

/-- A step starts with neither end reached (40_execution_loop R70), and so reaches at most one. -/
theorem step_reaches_one_end {s t : State} (h : step s = .next t) : ¬ (t.halt = true ∧ t.fault.isSome = true) := by
  obtain ⟨hno, hdone⟩ := step_cases h
  obtain ⟨-, hhalt, hfault⟩ := State.noStep_eq_none.mp hno
  obtain ⟨i, -, hi⟩ | ⟨-, rfl⟩ := hdone
  · obtain hh | hf := exec_halt_or_fault hi
    · simp [hh, hhalt]
    · simp [hf, hfault]
  · simp [hhalt]

/-! ### Reachable states -/

/-- All that an event answering a next state can have done. -/
theorem event_cases {e : Event} {s t : State} (h : event e s = .next t) :
    t = s.resetEvent ∨ (∃ image, s.loaded = false ∧ t = s.loadImage image) ∨ step s = .next t := by
  cases e with
  | reset => exact .inl (by simpa [event, eq_comm] using h)
  | load image =>
    simp only [event] at h
    split at h
    · cases h
    · next hl => exact .inr (.inl ⟨image, by simpa using hl, (Host.Outcome.next.inj h).symm⟩)
  | step => exact .inr (.inr h)

/-- What holds after every reset, and is kept by every load and every step, holds in every reachable state. -/
theorem Reachable.of_kept {P : State → Prop} (hreset : ∀ m : Memory, P { State.reset with mem := m })
    (hload : ∀ s image, P s → P (s.loadImage image)) (hstep : ∀ s t, P s → step s = .next t → P t)
    {s : State} (hs : Reachable s) : P s := by
  induction hs with
  | reset => exact hreset State.reset.mem
  | event e _ he ih =>
    obtain rfl | ⟨image, -, rfl⟩ | hst := event_cases he
    · exact hreset _
    · exact hload _ image ih
    · exact hstep _ _ ih hst

/-- FL is one-hot or 000 in every reachable state (10_state R18). -/
theorem Reachable.fl_legal {s : State} (hs : Reachable s) : legalFlags s.fl :=
  hs.of_kept (P := fun s => legalFlags s.fl) (fun _ => .inl rfl) (fun _ _ h => h) (fun _ _ => step_keeps_legalFlags)

/-- No reachable state has both HALT and a fault record (10_state R24). -/
theorem Reachable.one_end {s : State} (hs : Reachable s) : ¬ (s.halt = true ∧ s.fault.isSome = true) :=
  hs.of_kept (P := fun s => ¬ (s.halt = true ∧ s.fault.isSome = true)) (fun _ => by simp [State.reset])
    (fun _ _ h => h) (fun _ _ _ => step_reaches_one_end)

/-! ### Both ends are reached -/

/-- The cell an image lists for an address: none where the image holds the unlisted value. -/
def Memory.imageCell (image : Vector Byte 256) (a : Fin 256) : Option Host.Cell :=
  if image[a] = Memory.unlisted then none else some (a.val, image[a])

theorem Memory.ofImage_eq (image : Vector Byte 256) :
    Memory.ofImage image = (List.finRange 256).filterMap (Memory.imageCell image) := rfl

theorem Memory.lookup_imageCells (image : Vector Byte 256) (a : Fin 256) (l : List (Fin 256)) :
    Memory.lookup (l.filterMap (Memory.imageCell image)) a.val = if a ∈ l then image[a] else Memory.unlisted := by
  induction l with
  | nil => rfl
  | cons c l ih =>
    by_cases hu : image[c] = Memory.unlisted
    · rw [List.filterMap_cons_none (f := Memory.imageCell image) (if_pos hu), ih]
      by_cases hac : a = c
      · subst hac
        simp only [hu, ite_self]
      · simp [hac]
    · rw [List.filterMap_cons_some (f := Memory.imageCell image) (if_neg hu), Memory.lookup, ih]
      by_cases hac : a = c
      · simp [hac]
      · simp [hac, show c.val ≠ a.val from fun h => hac (Fin.ext h.symm)]

/-- After a load every address holds the image's byte (40_execution_loop R79). -/
theorem State.memRead_loadImage (s : State) (image : Vector Byte 256) (a : Byte) :
    (s.loadImage image).memRead a = image[a.toNat] := by
  have hcell := Memory.lookup_imageCells image a.toFin (List.finRange 256)
  rw [← Memory.ofImage_eq, if_pos (List.mem_finRange _)] at hcell
  exact hcell

/-- The launch of an image that holds one byte everywhere: the first step decodes that byte. -/
theorem fetchDecode_loadImage_replicate (s : State) (b : Byte) :
    (s.loadImage (Vector.replicate 256 b)).fetchDecode = decode b b b := by
  simp [State.fetchDecode_eq, State.memRead_loadImage]

theorem Reachable.loaded (image : Vector Byte 256) : Reachable (State.reset.loadImage image) :=
  .event (.load image) .reset rfl

theorem Reachable.stepped {s t : State} (hs : Reachable s) (h : step s = .next t) : Reachable t := .event .step hs h

/-- The converse of `step_cases` for a decoded instruction. -/
theorem step_eq_exec {s : State} {i : Instr} (hno : s.noStep = none) (hd : s.fetchDecode = .ok i) :
    step s = exec i s := by
  simp [step, hno, hd]

/-- The converse of `step_cases` for a rejected opcode byte. -/
theorem step_eq_rejectOpcode {s : State} {e : DecodeError} (hno : s.noStep = none) (hd : s.fetchDecode = .error e) :
    step s = rejectOpcode e s := by
  simp [step, hno, hd]

theorem exists_reachable_halted {image : Vector Byte 256}
    (hd : (State.reset.loadImage image).fetchDecode = .ok .hlt) : ∃ s, Reachable s ∧ s.normalEnd :=
  ⟨_, (Reachable.loaded image).stepped (step_eq_exec rfl hd), rfl⟩

theorem exists_reachable_faulted {image : Vector Byte 256} {ir : Byte}
    (hd : (State.reset.loadImage image).fetchDecode = .error (.invalidOpcode ir)) :
    ∃ s, Reachable s ∧ s.runState = .faulted :=
  ⟨_, (Reachable.loaded image).stepped (step_eq_rejectOpcode rfl hd), rfl⟩

/-- An image of HLT bytes leads to Halted, an image of zeros to Faulted. -/
theorem witness_reachable_halted_and_faulted :
    (∃ s, Reachable s ∧ s.normalEnd) ∧ (∃ s, Reachable s ∧ s.runState = .faulted) :=
  ⟨exists_reachable_halted (fetchDecode_loadImage_replicate State.reset 0x01),
    exists_reachable_faulted (fetchDecode_loadImage_replicate State.reset 0x00)⟩

/-- Settles O56: HALT and a fault record exclude each other in every reachable state, so the computed run state, which
puts Faulted first, is Halted whenever HALT is 1; FL is reset to 000 and written by compares only. -/
theorem reachableRunStatesAndFlags : Obligations.ReachableRunStatesAndFlags := by
  intro s hs
  have hone := hs.one_end
  refine ⟨State.runState_eq_halted_iff.trans ⟨And.right, fun hh => ⟨?_, hh⟩⟩, fun hf => ?_, hs.fl_legal⟩
  · exact Bool.eq_false_of_not_eq_true fun hf => hone ⟨hh, hf⟩
  · exact Bool.eq_false_of_not_eq_true fun hh => hone ⟨hh, State.runState_eq_faulted_iff.mp hf⟩

end Sys2Proof.Machine
end

section
/-! PROOFS, 10_state (R15, R17, R19, R23, R25, R28). First on what the answer of an instruction can depend, then for FL,
HALT, OUT and memory which instructions and events write and read each of them. -/

namespace Sys2Proof.Machine

open Sys2Proof

/-! ### On what the answer of an instruction depends -/

/-- The register that the low three bits of an operand byte name: `reg(b)` where the byte passes its check (30_encoding R56). -/
def lowRegister (b : Byte) : RegIndex := Fin.ofNat 8 b.toNat

theorem lowRegister_of_lt {b : Byte} (h : b.toNat < 8) : lowRegister b = ⟨b.toNat, h⟩ :=
  Fin.ext (Nat.mod_eq_of_lt h)

/-- The state an instruction that raises no fault leaves, as a function of the state it finds (`exec_raises_or_acts`; RET
without a link, which always faults, leaves the state as it is). -/
def effectOf (i : Instr) (s : State) : State :=
  match i with
  | .hlt => s.setHalt.loopUpdate (opcodeMap .hlt)
  | .ldi r v => (s.setReg (lowRegister r) v).loopUpdate (opcodeMap .ldi)
  | .prn r => (s.emit (s.reg (lowRegister r))).loopUpdate (opcodeMap .prn)
  | .mul a b =>
    (s.setReg (lowRegister a) (aluMul (s.reg (lowRegister a)) (s.reg (lowRegister b)))).loopUpdate (opcodeMap .mul)
  | .add a b =>
    (s.setReg (lowRegister a) (aluAdd (s.reg (lowRegister a)) (s.reg (lowRegister b)))).loopUpdate (opcodeMap .add)
  | .cmp a b => (s.setFl (aluCmp (s.reg (lowRegister a)) (s.reg (lowRegister b)))).loopUpdate (opcodeMap .cmp)
  | .push r =>
    let s₁ := s.setReg Config.spIndex s.pushAddr
    (s₁.memWrite s.pushAddr (s₁.reg (lowRegister r))).loopUpdate (opcodeMap .push)
  | .pop r =>
    let s₁ := (s.setReg (lowRegister r) (s.memRead s.popAddr)).memWrite s.popAddr 0
    (s₁.setReg Config.spIndex (s₁.reg Config.spIndex + 1)).loopUpdate (opcodeMap .pop)
  | .call r => (s.setLink (some (s.pc + 2))).setPc (s.reg (lowRegister r))
  | .ret => (s.setPc (s.link.getD s.pc)).setLink none
  | .jmp r => s.setPc (s.reg (lowRegister r))
  | .jeq r => s.setPc (if equalSet s.fl then s.reg (lowRegister r) else s.pc + 2)
  | .jne r => s.setPc (if equalSet s.fl then s.pc + 2 else s.reg (lowRegister r))

/-- Whether a register operand passes its check depends on its byte and on no state. -/
theorem withReg_raises_or_continues (m : Mnemonic) (o : Operand) (b : Byte) (k : State → RegIndex → Result) :
    (∃ c, ∀ s, withReg m o b s (k s) = .next (s.raise c (opcodeMap m))) ∨
      ∀ s, withReg m o b s (k s) = k s (lowRegister b) := by
  by_cases hb : b.toNat < 8
  · exact .inr fun s => by rw [withReg_of_lt hb, lowRegister_of_lt hb]
  · exact .inl ⟨_, fun s => withReg_of_ge (Nat.le_of_not_lt hb)⟩

/-- The same for a pair of register operands. -/
theorem withRegs_raises_or_continues (m : Mnemonic) (a b : Byte) (k : State → RegIndex → RegIndex → Result) :
    (∃ c, ∀ s, (withReg m .a a s fun x => withReg m .b b s (k s x)) = .next (s.raise c (opcodeMap m))) ∨
      ∀ s, (withReg m .a a s fun x => withReg m .b b s (k s x)) = k s (lowRegister a) (lowRegister b) := by
  obtain ⟨c, hc⟩ | ha := withReg_raises_or_continues m .a a fun s x => withReg m .b b s (k s x)
  · exact .inl ⟨c, hc⟩
  · obtain ⟨c, hc⟩ | hb := withReg_raises_or_continues m .b b fun s => k s (lowRegister a)
    · exact .inl ⟨c, fun s => (ha s).trans (hc s)⟩
    · exact .inr fun s => (ha s).trans (hb s)

/-- Whether an instruction other than RET faults, and with which cause, depends on its operand bytes only (60_exceptions
R131, R132). -/
theorem exec_raises_or_acts_of_ne_ret {i : Instr} (hi : i ≠ .ret) :
    (∃ c, ∀ s, exec i s = .next (s.raise c (opcodeMap i.mnemonic))) ∨ ∀ s, exec i s = .next (effectOf i s) := by
  cases i with
  | hlt => exact .inr fun _ => rfl
  | ldi => exact withReg_raises_or_continues ..
  | prn => exact withReg_raises_or_continues ..
  | mul => exact withRegs_raises_or_continues ..
  | add => exact withRegs_raises_or_continues ..
  | cmp => exact withRegs_raises_or_continues ..
  | push => exact withReg_raises_or_continues ..
  | pop => exact withReg_raises_or_continues ..
  | call => exact withReg_raises_or_continues ..
  | ret => exact absurd rfl hi
  | jmp => exact withReg_raises_or_continues ..
  | jeq => exact withReg_raises_or_continues ..
  | jne => exact withReg_raises_or_continues ..

theorem execRet_of_no_link {s : State} (h : s.link = none) :
    execRet s = .next (s.raise .invalidReturn (opcodeMap .ret)) := by
  simp only [execRet, h]

theorem execRet_of_link {s : State} {a : Byte} (h : s.link = some a) :
    execRet s = .next (effectOf .ret s) := by
  simp only [execRet, effectOf, h]
  rfl

/-- Whether an instruction faults, and with which cause, depends on its operand bytes, and for RET on LINK, and on nothing
else (60_exceptions R131 to R133). -/
theorem exec_raises_or_acts (i : Instr) (l : Option Byte) :
    (∃ c, ∀ s, (i = .ret → s.link = l) → exec i s = .next (s.raise c (opcodeMap i.mnemonic))) ∨
      ∀ s, (i = .ret → s.link = l) → exec i s = .next (effectOf i s) := by
  by_cases hi : i = .ret
  · subst hi
    cases l with
    | none => exact .inl ⟨_, fun s hs => execRet_of_no_link (hs rfl)⟩
    | some a => exact .inr fun s hs => execRet_of_link (hs rfl)
  · exact (exec_raises_or_acts_of_ne_ret hi).imp (fun ⟨c, hc⟩ => ⟨c, fun s _ => hc s⟩) fun h s _ => h s

/-- Two states with the same link for RET are answered alike: a relation that a fault's record and the instruction's effect
both keep holds between the two answers. -/
theorem exec_related {i : Instr} {s s' t : State} (R : State → State → Prop) (h : exec i s = .next t)
    (hlink : i = .ret → s'.link = s.link) (hraise : ∀ c ir, R (s.raise c ir) (s'.raise c ir))
    (heffect : R (effectOf i s) (effectOf i s')) : ∃ u, exec i s' = .next u ∧ R t u := by
  obtain ⟨c, hc⟩ | hact := exec_raises_or_acts i s.link
  · obtain rfl := Host.Outcome.next.inj ((hc s fun _ => rfl).symm.trans h)
    exact ⟨_, hc s' hlink, hraise _ _⟩
  · obtain rfl := Host.Outcome.next.inj ((hact s fun _ => rfl).symm.trans h)
    exact ⟨_, hact s' hlink, heffect⟩

/-! ### FL -/

/-- The three flags are less, greater and equal (10_state R17, 42_alu R92). -/
theorem aluCmp_bits (x y : Byte) :
    (aluCmp x y).getLsbD 2 = decide (x.toNat < y.toNat) ∧ (aluCmp x y).getLsbD 1 = decide (x.toNat > y.toNat) ∧
      (aluCmp x y).getLsbD 0 = decide (x.toNat = y.toNat) := by
  obtain hlt | heq | hgt := Nat.lt_trichotomy x.toNat y.toNat
  · simp [aluCmp, flagL, hlt, hlt.ne, hlt.le]
  · simp [aluCmp, flagE, heq]
  · simp [aluCmp, flagG, hgt, hgt.ne', Nat.not_lt.mpr hgt.le]

theorem exec_fl_of_ne_cmp {i : Instr} {s t : State} (hi : ∀ a b, i ≠ .cmp a b) (h : exec i s = .next t) :
    t.fl = s.fl := by
  cases exec_effect h with
  | cmp => exact absurd rfl (hi _ _)
  | _ => simp

/-- CMP of two registers answers with the compare's outcome in FL. -/
theorem exec_cmp_fl {s : State} {a b : Byte} (ha : a.toNat < 8) (hb : b.toNat < 8) :
    ∃ t, exec (.cmp a b) s = .next t ∧ t.fl = aluCmp s.regs[a.toNat] s.regs[b.toNat] :=
  ⟨_, (withReg_of_lt ha).trans (withReg_of_lt hb), State.loopUpdate_fl _ _⟩

/-- Only JEQ and JNE read FL, and of it only E. -/
theorem exec_other_fl {i : Instr} {s t : State} {f : Flags}
    (hf : ∀ r, i = .jeq r ∨ i = .jne r → equalSet f = equalSet s.fl) (h : exec i s = .next t) :
    ∃ u, exec i { s with fl := f } = .next u ∧ { u with fl := t.fl } = t := by
  refine exec_related (fun t u => { u with fl := t.fl } = t) h (fun _ => rfl) (fun _ _ => rfl) ?_
  cases i with
  | jeq r => simp [effectOf, State.setPc, State.reg, hf r (.inl rfl)]
  | jne r => simp [effectOf, State.setPc, State.reg, hf r (.inr rfl)]
  | _ => rfl

/-- Settles O38: CMP is the one effect that writes FL; the two jumps that read it test E. -/
theorem flagsBelongToCompareAndTheJumps : Obligations.FlagsBelongToCompareAndTheJumps := by
  refine ⟨fun i s t => exec_fl_of_ne_cmp, fun s a b ha hb => ?_, fun i s t f hi => exec_other_fl fun r hr => ?_,
    fun i s t f hE => exec_other_fl fun _ _ => hE⟩
  · obtain ⟨t, ht, hfl⟩ := exec_cmp_fl (s := s) ha hb
    exact ⟨t, ht, hfl ▸ aluCmp_bits _ _⟩
  · exact absurd hr (not_or.mpr (hi r))

/-! ### HALT -/

theorem exec_halt_of_ne_hlt {i : Instr} {s t : State} (hi : i ≠ .hlt) (h : exec i s = .next t) : t.halt = s.halt := by
  cases exec_effect h with
  | hlt => exact absurd rfl hi
  | _ => simp

/-- No instruction reads HALT. -/
theorem exec_other_halt {i : Instr} {s t : State} (b : Bool) (h : exec i s = .next t) :
    ∃ u, exec i { s with halt := b } = .next u ∧ { u with halt := t.halt } = t := by
  refine exec_related (fun t u => { u with halt := t.halt } = t) h (fun _ => rfl) (fun _ _ => rfl) ?_
  cases i <;> rfl

/-- A step changes HALT only by executing HLT. -/
theorem step_halt {s t : State} (h : step s = .next t) : s.fetchDecode = .ok .hlt ∨ t.halt = s.halt := by
  obtain ⟨-, ⟨i, hd, hi⟩ | ⟨-, rfl⟩⟩ := step_cases h
  · by_cases hne : i = .hlt
    · exact .inl (hne ▸ hd)
    · exact .inr (exec_halt_of_ne_hlt hne hi)
  · exact .inr rfl

theorem step_ne_next_of_halt {s t : State} (hs : s.halt = true) : step s ≠ .next t := by
  intro h
  obtain ⟨hno, -⟩ := step_cases h
  obtain ⟨-, hrun, -⟩ := State.noStep_eq_none.mp hno
  simp [hs] at hrun

/-- A load that is not refused puts the image in place. -/
theorem event_load_cases {s t : State} {image : Vector Byte 256} (h : event (.load image) s = .next t) :
    t = s.loadImage image := by
  simp only [event] at h
  split at h
  · cases h
  · exact (Host.Outcome.next.inj h).symm

/-- Of the events only a reset and a step that executes HLT change HALT. -/
theorem event_halt {e : Event} {s t : State} (h : event e s = .next t) :
    (e = .reset ∧ t.halt = false) ∨ (e = .step ∧ s.fetchDecode = .ok .hlt ∧ s.halt = false) ∨ t.halt = s.halt := by
  cases e with
  | reset => exact .inl ⟨rfl, (Host.Outcome.next.inj h) ▸ rfl⟩
  | load image => exact .inr (.inr (event_load_cases h ▸ rfl))
  | step =>
    have hrun : s.halt = false := Bool.eq_false_of_not_eq_true fun hs => step_ne_next_of_halt hs h
    exact .inr ((step_halt h).imp (fun hd => ⟨rfl, hd, hrun⟩) id)

/-- Settles O39: HLT is the one effect that writes HALT, a reset clears it, and the step's test of it comes before any
instruction. -/
theorem haltBelongsToHltAndReset : Obligations.HaltBelongsToHltAndReset := by
  refine ⟨rfl, fun s => ⟨_, rfl, rfl⟩, fun s => ⟨_, rfl, State.loopUpdate_halt _ _⟩, fun i s t => exec_halt_of_ne_hlt,
    fun e s t he hs ht => ?_, fun e s t he hs ht => ?_, fun i s t => exec_other_halt, fun s t => step_ne_next_of_halt⟩
  · obtain ⟨-, h0⟩ | ⟨hstep, hd, -⟩ | hsame := event_halt he
    · simp [ht] at h0
    · exact ⟨hstep, hd⟩
    · simp [hs, ht] at hsame
  · obtain ⟨hreset, -⟩ | ⟨-, -, h0⟩ | hsame := event_halt he
    · exact hreset
    · simp [hs] at h0
    · simp [hs, ht] at hsame

/-! ### OUT -/

theorem exec_out_of_ne_prn {i : Instr} {s t : State} (hi : ∀ r, i ≠ .prn r) (h : exec i s = .next t) :
    t.out = s.out := by
  cases exec_effect h with
  | prn => exact absurd rfl (hi _)
  | _ => simp

/-- Every instruction keeps what is in OUT. -/
theorem exec_out_prefix {i : Instr} {s t : State} (h : exec i s = .next t) : s.out <+: t.out := by
  cases exec_effect h with
  | prn =>
    rw [State.loopUpdate_out, State.emit_out]
    exact List.prefix_append _ _
  | _ => simp

theorem step_out_prefix {s t : State} (h : step s = .next t) : s.out <+: t.out := by
  obtain ⟨-, ⟨i, -, hi⟩ | ⟨-, rfl⟩⟩ := step_cases h
  · exact exec_out_prefix hi
  · exact List.prefix_rfl

/-- Settles O40: PRN is the one effect that touches OUT, and it appends. -/
theorem outputBelongsToPrn : Obligations.OutputBelongsToPrn := by
  refine ⟨rfl, fun s => ⟨_, rfl, rfl⟩, fun s r hr => ⟨_, withReg_of_lt hr, State.loopUpdate_out _ _⟩,
    fun i s t => exec_out_of_ne_prn, fun e s t hne he => ?_⟩
  cases e with
  | reset => exact absurd rfl hne
  | load image => exact event_load_cases he ▸ List.prefix_rfl
  | step => exact step_out_prefix he

/-! ### Memory -/

/-- Settles O42: the effects of PUSH and POP hold the only stores. -/
theorem memoryFrame : Obligations.MemoryFrame := by
  intro i s t x h hpush hpop
  cases exec_effect h with
  | push => simp [State.memRead_memWrite, hpush _ rfl]
  | pop => simp [State.memRead_memWrite, hpop _ rfl]
  | _ => simp

/-- An instruction other than PUSH and POP answers the same with any memory, which it keeps. -/
theorem exec_other_mem {i : Instr} {s t : State} (m : Memory) (hi : ∀ r, i ≠ .push r ∧ i ≠ .pop r)
    (h : exec i s = .next t) : exec i { s with mem := m } = .next { t with mem := m } := by
  have heffect : effectOf i { s with mem := m } = { effectOf i s with mem := m } := by
    cases i with
    | push r => exact absurd rfl (hi r).1
    | pop r => exact absurd rfl (hi r).2
    | _ => rfl
  obtain ⟨u, hu, rfl⟩ := exec_related (s' := { s with mem := m }) (fun t u => u = { t with mem := m }) h
    (fun _ => rfl) (fun _ _ => rfl) heffect
  exact hu

theorem exec_push_other_mem {s t : State} {r : Byte} (m : Memory) (h : exec (.push r) s = .next t) :
    ∃ u, exec (.push r) { s with mem := m } = .next u ∧ { u with mem := t.mem } = t :=
  exec_related (fun t u => { u with mem := t.mem } = t) h (fun _ => rfl) (fun _ _ => rfl) rfl

/-- POP reads one byte of memory, the one at SP. -/
theorem exec_pop_other_mem {s t : State} {r : Byte} {m : Memory} (hm : m.read s.popAddr = s.memRead s.popAddr)
    (h : exec (.pop r) s = .next t) :
    ∃ u, exec (.pop r) { s with mem := m } = .next u ∧ { u with mem := t.mem } = t := by
  have hread : State.memRead { s with mem := m } (State.popAddr { s with mem := m }) = s.memRead s.popAddr := hm
  refine exec_related (fun t u => { u with mem := t.mem } = t) h (fun _ => rfl) (fun _ _ => rfl) ?_
  simp only [effectOf, hread]
  rfl

/-- Settles O43: of the effects only PUSH's and POP's name memory, and only POP's reads it. -/
theorem dataMemoryIsReachedOnlyThroughTheStack : Obligations.DataMemoryIsReachedOnlyThroughTheStack :=
  ⟨fun _ _ _ m => exec_other_mem m, fun _ _ _ m => exec_push_other_mem m, fun _ _ _ _ => exec_pop_other_mem⟩

/-! ### The reset values -/

/-- The register file after reset (10_state R13, R29). -/
theorem reset_regs (k : Fin 8) : State.reset.regs[k] = if k = 7 then 0xF3 else 0 := by
  revert k
  decide

/-- Settles O47: the register file by its eight entries, the other values as `State.reset` lists them. -/
theorem resetValues : Obligations.ResetValues :=
  ⟨reset_regs, rfl, rfl, rfl, rfl, rfl, rfl, rfl⟩

end Sys2Proof.Machine
end

section
/-! PROOFS, 20_memory (R32, R35, R36, R43). An instruction stored at the PC is the one the next step runs, and a byte PUSH or
POP stores is the byte the next fetch reads. -/

namespace Sys2Proof

/-! ### Bytes in ascending order decode to the instruction they encode -/

/-- An instruction is made again of its row and its own operand bytes, with any byte where its format uses none
(30_encoding R54, R55). -/
theorem instrOf_of_operandBytes_prefix {i : Instr} {opa opb : Byte} (h : i.operandBytes <+: [opa, opb]) :
    instrOf i.mnemonic opa opb = i := by
  cases i <;> simp_all [Instr.operandBytes, Instr.mnemonic, instrOf]

/-- Three bytes that begin with an instruction's encoding decode to it (30_encoding R50, R53). -/
theorem decode_of_encode_prefix {ir opa opb : Byte} {i : Instr} (h : encode i <+: [ir, opa, opb]) :
    decode ir opa opb = .ok i := by
  obtain ⟨rfl, hop⟩ := List.cons_prefix_cons.mp h
  simp only [decode, lookupOpcode_opcodeMap, instrOf_of_operandBytes_prefix hop]

/-- An instruction has at most two bytes after its opcode byte (30_encoding R50). -/
theorem encode_length_le (i : Instr) : (encode i).length ≤ 3 := by
  cases i <;> simp [encode, Instr.operandBytes]

end Sys2Proof

namespace Sys2Proof.Machine

open Sys2Proof

/-! ### The stored instruction -/

/-- A loaded core in Running has a step (40_execution_loop R70, 70_reset_and_hazards R151). -/
theorem State.noStep_of_running {s : State} (hl : s.loaded = true) (hr : s.runState = .running) : s.noStep = none := by
  simp [State.noStep, hr, hl]

/-- The three bytes fetched begin with the encoding that is stored from the PC on, modulo 256 (20_memory R35, R36). -/
theorem State.encode_prefix_fetched {s : State} {i : Instr}
    (hst : ∀ (k : Nat) (b : Byte), (encode i)[k]? = some b → s.memRead (s.pc + BitVec.ofNat 8 k) = b) :
    encode i <+: [s.fetchByte 0, s.fetchByte 1, s.fetchByte 2] := by
  refine List.prefix_iff_getElem?.mpr fun k hk => ?_
  have hread : s.fetchByte (BitVec.ofNat 8 k) = (encode i)[k] := hst k _ (List.getElem?_eq_getElem hk)
  have hk3 : k < 3 := hk.trans_le (encode_length_le i)
  rw [← hread]
  interval_cases k <;> rfl

/-- Settles O8: the bytes fetched begin with the encoding of `i`, so they decode to `i`. -/
theorem storedInstructionRunsAtAnyAddress : Obligations.StoredInstructionRunsAtAnyAddress :=
  fun _ _ hl hr hst =>
    step_eq_exec (State.noStep_of_running hl hr) (decode_of_encode_prefix (State.encode_prefix_fetched hst))

/-! ### The stored byte -/

/-- The cell below the old SP holds what PUSH stores: the register read after SP is decremented (43_stack R100, R102). -/
theorem exec_push_memRead_pushAddr {s t : State} {r : Byte} (hr : r.toNat < 8) (h : exec (.push r) s = .next t) :
    t.memRead s.pushAddr = (s.setReg Config.spIndex s.pushAddr).reg ⟨r.toNat, hr⟩ := by
  obtain rfl := finish_cases ((withReg_of_lt hr).symm.trans h)
  simp [State.memRead_memWrite]

/-- The cell at the old SP is zeroed by POP (43_stack R101). -/
theorem exec_pop_memRead_popAddr {s t : State} {r : Byte} (hr : r.toNat < 8) (h : exec (.pop r) s = .next t) :
    t.memRead s.popAddr = 0 := by
  obtain rfl := finish_cases ((withReg_of_lt hr).symm.trans h)
  simp [State.memRead_memWrite]

/-- The register PUSH reads: R7 is already decremented (43_stack R102, decision D11), every other one is as before. -/
theorem State.reg_after_decrement (s : State) {n : Nat} (hn : n < 8) :
    (s.setReg Config.spIndex s.pushAddr).reg ⟨n, hn⟩ = if n = 7 then s.regs[7] - 1 else s.regs[n] := by
  simp only [State.reg_setReg, Fin.ext_iff]
  rfl

/-- Settles O23: a fetch reads the same memory as a data access, so at the address stored to it reads the byte stored. -/
theorem fetchSeesTheStoreAtOnce : Obligations.FetchSeesTheStoreAtOnce := by
  refine fun s t r k hr => ⟨fun hx ha => ?_, fun hx ha => ?_⟩
  · rw [State.fetchByte, ha, exec_push_memRead_pushAddr hr hx, State.reg_after_decrement]
  · rw [State.fetchByte, ha, exec_pop_memRead_popAddr hr hx]

end Sys2Proof.Machine
end

section
/-! PROOFS, 30_encoding (R50 to R63). Decoding and encoding undo each other, what an opcode byte's fields say of the
instruction, and the two policies that are described and not adopted (R61, D7). -/

namespace Sys2Proof

/-! ### Decode after encode -/

/-- A run of bytes that begins with an instruction's encoding decodes to it (30_encoding R50, R55). -/
theorem decodeBytes_of_encode_prefix {i : Instr} {bs : List Byte} (h : encode i <+: bs) : decodeBytes bs = .ok i := by
  refine decode_of_encode_prefix (List.prefix_iff_getElem?.mpr fun k hk => ?_)
  have hget : bs[k]? = some (encode i)[k] := List.prefix_iff_getElem?.mp h k hk
  have hk3 : k < 3 := hk.trans_le (encode_length_le i)
  interval_cases k <;> simp [List.getD_eq_getElem?_getD, hget]

/-- Settles O1: the encoding begins the run of bytes, so the decoder reads it back. -/
theorem decodeOfEncodeIsTheInstruction : Obligations.DecodeOfEncodeIsTheInstruction :=
  fun i rest => decodeBytes_of_encode_prefix (List.prefix_append (encode i) rest)

/-- No two instructions have the same bytes: the decoder tells them apart. -/
theorem encode_inj {i j : Instr} : encode i = encode j ↔ i = j := by
  refine ⟨fun h => ?_, congrArg encode⟩
  have hi : decodeBytes (encode i) = .ok i := decodeBytes_of_encode_prefix List.prefix_rfl
  have hj : decodeBytes (encode i) = .ok j := decodeBytes_of_encode_prefix (h ▸ List.prefix_rfl)
  exact Except.ok.inj (hi.symm.trans hj)

/-! ### Encode after decode -/

/-- `op_size` as the quotient by 64 (30_encoding R51). -/
theorem opSize_eq_div (ir : Byte) : opSize ir = ir.toNat / 64 := by
  simp [opSize, Nat.shiftRight_eq_div_pow]

/-- A row's instruction keeps as many of the operand bytes as the `op_size` field of its opcode byte says
(30_encoding R51, R54). -/
theorem operandBytes_instrOf (m : Mnemonic) (opa opb : Byte) :
    (instrOf m opa opb).operandBytes = [opa, opb].take (opSize (opcodeMap m)) := by
  cases m <;> rfl

/-- The encoding of a decoded instruction is the bytes it was decoded from, cut to its length (30_encoding R52). -/
theorem encode_of_decode {ir opa opb : Byte} {i : Instr} (h : decode ir opa opb = .ok i) :
    encode i = ir :: [opa, opb].take (ir.toNat / 64) := by
  obtain ⟨m, rfl, hd⟩ | ⟨-, hd⟩ := decode_cases ir opa opb
  · obtain rfl : instrOf m opa opb = i := Except.ok.inj (hd.symm.trans h)
    rw [encode, mnemonic_instrOf, operandBytes_instrOf, opSize_eq_div]
  · simp [hd] at h

/-- Settles O2: `op_size` counts the operand bytes, and the opcode byte stands before them. -/
theorem encodeOfDecodeIsTheBytesRead : Obligations.EncodeOfDecodeIsTheBytesRead :=
  fun _ _ _ _ => encode_of_decode

/-! ### The operand bytes a format uses -/

/-- Two runs of bytes with one opcode byte decode to the same instruction exactly when they agree on the operand bytes
that `op_size` counts: the encoding holds these and no others. -/
theorem decoded_eq_iff {ir opa opb opa' opb' : Byte} {i j : Instr}
    (hi : decode ir opa opb = .ok i) (hj : decode ir opa' opb' = .ok j) :
    i = j ↔ [opa, opb].take (ir.toNat / 64) = [opa', opb'].take (ir.toNat / 64) := by
  rw [← encode_inj, encode_of_decode hi, encode_of_decode hj, List.cons_inj_right]

/-- Settles O5: the bytes fetched are those at PC, PC + 1 and PC + 2, and of the operand bytes `op_size` many matter. -/
theorem unusedOperandBytesAreIgnored : Obligations.UnusedOperandBytesAreIgnored := by
  refine ⟨Machine.State.fetchDecode_eq, fun ir opa opb opa' opb' i j hi hj => ?_⟩
  rw [decoded_eq_iff hi hj]
  refine ⟨fun h0 => ?_, fun h1 => ?_, fun h2 => ?_⟩
  · simp [h0]
  · simp [h1]
  · simp [h2]

/-! ### The `sets_pc` bit -/

/-- The rows of the opcode map whose byte has bit 4 set (30_encoding R51, R59 b). -/
theorem setsPc_opcodeMap (m : Mnemonic) :
    setsPc (opcodeMap m) = true ↔ m ∈ [.ret, .call, .jmp, .jeq, .jne] := by
  cases m <;> decide

/-- The instructions of these rows. -/
theorem mnemonic_mem_transfers_iff (i : Instr) :
    i.mnemonic ∈ [.ret, .call, .jmp, .jeq, .jne] ↔
      (i = .ret ∨ ∃ r, i = .call r ∨ i = .jmp r ∨ i = .jeq r ∨ i = .jne r) := by
  cases i <;> simp [Instr.mnemonic]

/-- Settles O6: the opcode byte decoded from is that of the instruction's row. -/
theorem setsPcExactlyOnTransfers : Obligations.SetsPcExactlyOnTransfers := by
  intro ir opa opb i h
  rw [← mnemonic_mem_transfers_iff, ← setsPc_opcodeMap, opcode_of_decode h, setsPc]

end Sys2Proof

namespace Sys2Proof.Machine

open Sys2Proof

/-! ### The policies not adopted -/

/-- With bit 4 set the loop leaves the state as it is (40_execution_loop R76). -/
theorem State.loopUpdate_of_setsPc (s : State) {ir : Byte} (h : setsPc ir = true) : s.loopUpdate ir = s := by
  simp [State.loopUpdate, h]

/-- With bit 4 clear the loop advances the PC by `op_size + 1` (40_execution_loop R76). -/
theorem State.loopUpdate_of_not_setsPc (s : State) {ir : Byte} (h : setsPc ir = false) :
    s.loopUpdate ir = s.setPc (s.pc + BitVec.ofNat 8 (ir.toNat / 64 + 1)) := by
  simp [State.loopUpdate, h, opSize_eq_div]

/-- Settles O37: `legacy_nop` is the loop's PC update alone, and `mask3` names a register for every byte. -/
theorem alternativePolicies : Obligations.AlternativePolicies :=
  ⟨fun s _ => s.loopUpdate_of_setsPc, fun s _ => s.loopUpdate_of_not_setsPc, fun _ => rfl⟩

end Sys2Proof.Machine
end

section
/-! PROOFS, 40_execution_loop (R73 to R80). A step is the instruction its fetched bytes decode to, by the table of R77; what
Load answers, and the launch from reset. -/

namespace Sys2Proof.Machine

open Sys2Proof

/-! ### The step -/

/-- Settles O7: in a loaded, running core the step goes on to fetch, and the bytes fetched are the three of the
statement. -/
theorem stepRunsTheDecodedInstruction : Obligations.StepRunsTheDecodedInstruction :=
  fun s _ hl hr hd => step_eq_exec (State.noStep_of_running hl hr) (s.fetchDecode_eq.trans hd)

/-- Settles O9: the byte at the PC is the opcode byte of one of the thirteen rows, and the table has the row's
instruction there, or it is none of them and is rejected. -/
theorem stepDispatchesOnTheOpcodeByte : Obligations.StepDispatchesOnTheOpcodeByte := by
  intro s hl hr ir opa opb
  have hno : s.noStep = none := State.noStep_of_running hl hr
  have hfetch : s.fetchDecode = decode ir opa opb := s.fetchDecode_eq
  obtain ⟨m, hm, hd⟩ | ⟨hnone, hd⟩ := decode_cases ir opa opb
  · rw [step_eq_exec hno (hfetch.trans hd), ← hm]
    cases m <;> rfl
  · have hne : ∀ m ∈ allMnemonics, ir ≠ opcodeMap m := fun m _ => (lookupOpcode_eq_none.mp hnone m).symm
    simp only [allMnemonics, opcodeMap, List.forall_mem_cons, ne_eq] at hne
    rw [step_eq_rejectOpcode hno (hfetch.trans hd)]
    simp only [hne, if_false]
    rfl

/-! ### Load -/

/-- A core that has no image takes the image (40_execution_loop R79). -/
theorem event_load_of_not_loaded {s : State} (h : s.loaded = false) (image : Vector Byte 256) :
    event (.load image) s = .next (s.loadImage image) := by
  simp [event, h]

/-- A core that has its image refuses another (40_execution_loop R79; log entry 14). -/
theorem event_load_of_loaded {s : State} (h : s.loaded = true) (image : Vector Byte 256) :
    event (.load image) s = .refused .loadOutOfOrder := by
  simp [event, h]

/-- Settles O49: the loaded memory reads as the image at every address, and Load is refused once there is one. -/
theorem loadDefinesEveryCell : Obligations.LoadDefinesEveryCell := by
  refine fun s image => ⟨fun h => ⟨_, event_load_of_not_loaded h image, rfl, fun a => ?_⟩, fun h t => ?_⟩
  · simp [State.memRead_loadImage]
  · simp [event_load_of_loaded h]

/-! ### The launch -/

/-- The first fetch after reset and Load reads the image from address 0 on (40_execution_loop R80). -/
theorem fetchDecode_launch (image : Vector Byte 256) :
    (State.reset.loadImage image).fetchDecode = decode image[0] image[1] image[2] := by
  simp only [State.fetchDecode_eq, State.memRead_loadImage]
  rfl

/-- Settles O50: the core is loaded and running after Load, so its first step is the instruction at address 0. -/
theorem launchStartsAtAddressZero : Obligations.LaunchStartsAtAddressZero :=
  ⟨rfl, fun image => ⟨_, event_load_of_not_loaded rfl image,
    fun _ hd => step_eq_exec rfl ((fetchDecode_launch image).trans hd), rfl⟩⟩

/-! ### The invariant under Reset and Load -/

/-- With the reset values in every register the invariant asks for nothing but a canonical memory, before Load and
after it. -/
theorem State.Inv.of_reset_values {m : Memory} (hm : m.wf) (b : Bool) :
    State.Inv { State.reset with mem := m, loaded := b } where
  mem := hm
  fl := .inl rfl
  oneEnd := by simp [State.reset]
  record := by simp [State.reset]
  launch := by rintro rfl; rfl

/-- Settles O54: both events leave the reset values in every register, Reset because it puts them there and Load because
the invariant has them there until Load; a reset keeps memory, and a loaded image is canonical. -/
theorem resetAndLoadKeepTheInvariant : Obligations.ResetAndLoadKeepTheInvariant := by
  rintro s t image hs (hreset | hload)
  · obtain rfl : s.resetEvent = t := Host.Outcome.next.inj hreset
    exact .of_reset_values hs.mem false
  · cases hl : s.loaded with
    | true => simp [event_load_of_loaded hl] at hload
    | false =>
      obtain rfl : s.loadImage image = t := by simpa [event_load_of_not_loaded hl] using hload
      rw [hs.launch hl]
      exact .of_reset_values (Memory.wf_ofImage image) true

end Sys2Proof.Machine
end

section
/-! PROOFS, 41_control_data (R86, R87). A register byte below 8 gets past the check, the handler makes its one change, and
the loop advances the PC by the instruction's length. -/

namespace Sys2Proof.Machine

open Sys2Proof

/-- A handler whose opcode byte has bit 4 clear ends with the PC advanced by `op_size + 1` (40_execution_loop R76). -/
theorem finish_of_not_setsPc {m : Mnemonic} {s : State} (h : setsPc (opcodeMap m) = false) :
    finish m s = .next (s.setPc (s.pc + BitVec.ofNat 8 ((opcodeMap m).toNat / 64 + 1))) :=
  congrArg Host.Outcome.next (s.loopUpdate_of_not_setsPc h)

/-- Settles O13: the immediate goes to the register named, and LDI has two operand bytes. -/
theorem ldiLoadsTheImmediate : Obligations.LdiLoadsTheImmediate := by
  intro s r v h
  calc exec (.ldi r v) s
    _ = finish .ldi (s.setReg ⟨r.toNat, h⟩ v) := withReg_of_lt h
    _ = .next ((s.setReg ⟨r.toNat, h⟩ v).setPc (s.pc + 3)) := finish_of_not_setsPc rfl

/-- Settles O14: the value of the register named is emitted, and PRN has one operand byte. -/
theorem prnEmitsTheRegister : Obligations.PrnEmitsTheRegister := by
  intro s r h
  calc exec (.prn r) s
    _ = finish .prn (s.emit (s.reg ⟨r.toNat, h⟩)) := withReg_of_lt h
    _ = .next ((s.emit (s.reg ⟨r.toNat, h⟩)).setPc (s.pc + 2)) := finish_of_not_setsPc rfl

end Sys2Proof.Machine
end

section
/-! PROOFS, 42_alu (R90 to R94). The three ALU functions by their arithmetic, then the next state of MUL, ADD and CMP written
with them, and from the flag a CMP leaves the jumps that test it. -/

namespace Sys2Proof.Machine

open Sys2Proof

/-! ### The ALU functions -/

/-- `alu_cmp` by the order of the operands (42_alu R94). -/
theorem aluCmp_eq (x y : Byte) : aluCmp x y = if x.toNat < y.toNat then 0b100 else if x = y then 0b001 else 0b010 := by
  simp only [aluCmp, flagL, flagE, flagG, BitVec.toNat_inj]

/-- A byte made of a number reads the number modulo 256 only (42_alu R93). -/
theorem ofNat_mod_256 (n : Nat) : BitVec.ofNat 8 (n % 256) = BitVec.ofNat 8 n :=
  BitVec.eq_of_toNat_eq (Nat.mod_mod n 256)

/-- The flag the conditional jumps test is set by a compare of equal values only (42_alu R92). -/
theorem equalSet_aluCmp (x y : Byte) : equalSet (aluCmp x y) = decide (x = y) := by
  obtain ⟨-, -, hE⟩ := aluCmp_bits x y
  simpa only [equalSet, BitVec.toNat_inj] using hE

/-! ### The three instructions -/

/-- An instruction on two registers whose opcode byte has bit 4 clear: both bytes get past the check, and the handler's
state is answered with the PC advanced by `op_size + 1` (40_execution_loop R76, R78). -/
theorem withRegs_finish_of_lt {m : Mnemonic} {a b : Byte} {s : State} {f : RegIndex → RegIndex → State}
    (ha : a.toNat < 8) (hb : b.toNat < 8) (hm : setsPc (opcodeMap m) = false) :
    (withReg m .a a s fun i => withReg m .b b s fun j => finish m (f i j)) =
      .next ((f ⟨a.toNat, ha⟩ ⟨b.toNat, hb⟩).setPc
        ((f ⟨a.toNat, ha⟩ ⟨b.toNat, hb⟩).pc + BitVec.ofNat 8 ((opcodeMap m).toNat / 64 + 1))) := by
  rw [withReg_of_lt ha, withReg_of_lt hb, finish_of_not_setsPc hm]

section

variable (s : State) {a b : Byte} (ha : a.toNat < 8) (hb : b.toNat < 8)

/-- MUL puts the ALU's product in `R[a]` (42_alu R90, R94). -/
theorem exec_mul_of_lt : exec (.mul a b) s = .next { s with
    regs := s.regs.set a.toNat (aluMul s.regs[a.toNat] s.regs[b.toNat]) ha, pc := s.pc + 3 } :=
  withRegs_finish_of_lt ha hb rfl

/-- ADD puts the ALU's sum in `R[a]` (42_alu R91, R94). -/
theorem exec_add_of_lt : exec (.add a b) s = .next { s with
    regs := s.regs.set a.toNat (aluAdd s.regs[a.toNat] s.regs[b.toNat]) ha, pc := s.pc + 3 } :=
  withRegs_finish_of_lt ha hb rfl

/-- CMP puts the ALU's compare in FL (42_alu R92, R94). -/
theorem exec_cmp_of_lt : exec (.cmp a b) s =
    .next { s with fl := aluCmp s.regs[a.toNat] s.regs[b.toNat], pc := s.pc + 3 } :=
  withRegs_finish_of_lt ha hb rfl

end

/-- Settles O18: the ALU's sum and product are narrowed to 8 bits, and its result is all that ADD, MUL and CMP write beside
the PC. -/
theorem aluIsAPureFunction : Obligations.AluIsAPureFunction :=
  ⟨fun _ _ => BitVec.toNat_ofNat .., fun _ _ => BitVec.toNat_ofNat .., aluCmp_eq, fun s _ _ ha hb =>
    ⟨⟨_, exec_add_of_lt s ha hb, rfl, rfl⟩, ⟨_, exec_mul_of_lt s ha hb, rfl, rfl⟩, ⟨_, exec_cmp_of_lt s ha hb, rfl, rfl⟩⟩⟩

/-- Settles O15: the ALU's product is the product modulo 256. -/
theorem mulMultipliesModulo256 : Obligations.MulMultipliesModulo256 := by
  intro s a b ha hb
  rw [exec_mul_of_lt s ha hb, aluMul, ofNat_mod_256]

/-- Settles O16: the ALU's sum is the sum modulo 256. -/
theorem addAddsModulo256 : Obligations.AddAddsModulo256 := by
  intro s a b ha hb
  rw [exec_add_of_lt s ha hb, aluAdd, ofNat_mod_256]

/-- Settles O17: the ALU's compare is the unsigned order. -/
theorem cmpSetsOneFlag : Obligations.CmpSetsOneFlag := by
  intro s a b ha hb
  rw [exec_cmp_of_lt s ha hb, aluCmp_eq]

/-! ### A jump after CMP -/

/-- A handler whose opcode byte has bit 4 set has written the PC itself (40_execution_loop R76). -/
theorem finish_of_setsPc {m : Mnemonic} {s : State} (h : setsPc (opcodeMap m) = true) : finish m s = .next s :=
  congrArg Host.Outcome.next (s.loopUpdate_of_setsPc h)

/-- JEQ goes to the register's value when E is set, else past its own two bytes (44_control_transfer R113). -/
theorem exec_jeq_of_lt (s : State) {r : Byte} (hr : r.toNat < 8) :
    exec (.jeq r) s = .next { s with pc := if equalSet s.fl then s.regs[r.toNat] else s.pc + 2 } :=
  (withReg_of_lt hr).trans (finish_of_setsPc rfl)

/-- JNE goes past its own two bytes when E is set, else to the register's value (44_control_transfer R114). -/
theorem exec_jne_of_lt (s : State) {r : Byte} (hr : r.toNat < 8) :
    exec (.jne r) s = .next { s with pc := if equalSet s.fl then s.pc + 2 else s.regs[r.toNat] } :=
  (withReg_of_lt hr).trans (finish_of_setsPc rfl)

/-- Settles O29: the CMP leaves E as the equality of the two values, and the jump, three bytes on, tests it; it changes no
register, so the target is the one the register held before. -/
theorem jumpsFollowTheMostRecentCompare : Obligations.JumpsFollowTheMostRecentCompare := by
  intro s a b r ha hb hr
  have hpc : s.pc + 3 + 2 = s.pc + 5 := BitVec.add_assoc s.pc 3 2
  refine ⟨_, _, _, exec_cmp_of_lt s ha hb, exec_jeq_of_lt _ hr, exec_jne_of_lt _ hr, ?_, ?_⟩
  · simp only [equalSet_aluCmp, decide_eq_true_eq, hpc]
  · simp only [equalSet_aluCmp, decide_eq_true_eq, hpc]

end Sys2Proof.Machine
end

section
/-! PROOFS, 43_stack (R100 to R107). The next states of PUSH and POP on a register byte below 8, in the order of their
effects; from both, what one register sees of a PUSH and a POP; and that CALL and RET keep memory and the registers. -/

namespace Sys2Proof.Machine

open Sys2Proof

/-! ### PUSH -/

/-- PUSH decrements SP and stores the register that the new register file holds (43_stack R100). -/
theorem exec_push_of_lt (s : State) {r : Byte} (hr : r.toNat < 8) : exec (.push r) s = .next { s with
    regs := s.regs.set 7 (s.regs[7] - 1)
    mem := s.mem.write s.pushAddr (s.regs.set 7 (s.regs[7] - 1))[r.toNat]
    pc := s.pc + 2 } :=
  (withReg_of_lt hr).trans (finish_of_not_setsPc rfl)

/-- Settles O19: PUSH makes one store, at the decremented SP, and the value stored is the old one unless the register
is R7. -/
theorem pushStoresBelowTheStackPointer : Obligations.PushStoresBelowTheStackPointer := by
  refine fun s r hr => ⟨_, exec_push_of_lt s hr, rfl, fun x => ?_, rfl⟩
  rw [← s.reg_after_decrement hr]
  exact Memory.read_write s.mem s.pushAddr _ x

/-! ### POP -/

/-- POP writes the register, zeroes the cell at SP, and increments the R7 of the new register file (43_stack R101). -/
theorem exec_pop_of_lt (s : State) {r : Byte} (hr : r.toNat < 8) : exec (.pop r) s = .next { s with
    regs := (s.regs.set r.toNat (s.memRead s.popAddr)).set 7 ((s.regs.set r.toNat (s.memRead s.popAddr))[7] + 1)
    mem := s.mem.write s.popAddr 0
    pc := s.pc + 2 } :=
  (withReg_of_lt hr).trans (finish_of_not_setsPc rfl)

/-- The R7 that POP increments is the byte popped when that goes to R7 (43_stack R103, decision D11), else the old SP. -/
theorem regs_after_pop (regs : Vector Byte 8) (v : Byte) {n : Nat} (hn : n < 8) :
    (regs.set n v).set 7 ((regs.set n v)[7] + 1) =
      if n = 7 then regs.set 7 (v + 1) else (regs.set n v).set 7 (regs[7] + 1) := by
  split
  case isTrue h => simp [h]
  case isFalse h => rw [Vector.getElem_set_ne _ _ h]

/-- Settles O20: POP makes one store, the zero at the old SP, and its register file is that of `regs_after_pop`. -/
theorem popReadsAndZeroesTheStackCell : Obligations.PopReadsAndZeroesTheStackCell := by
  refine fun s r hr => ⟨_, exec_pop_of_lt s hr, ?_, fun x => Memory.read_write s.mem s.popAddr 0 x, rfl⟩
  rw [regs_after_pop _ _ hr]
  rfl

/-! ### PUSH, then POP of the same register -/

/-- POP into a register that holds the byte at SP already leaves its value, R7 or not: it increments SP and zeroes
the cell. -/
theorem exec_pop_of_cell_eq_register {s : State} {r : Byte} (hr : r.toNat < 8)
    (hcell : s.memRead s.popAddr = s.regs[r.toNat]) : exec (.pop r) s = .next { s with
      regs := s.regs.set 7 (s.regs[7] + 1)
      mem := s.mem.write s.popAddr 0
      pc := s.pc + 2 } := by
  rw [exec_pop_of_lt s hr, hcell, Vector.set_getElem_self]

/-- Incrementing SP after decrementing it gives the register file back, modulo 256 (43_stack R104). -/
theorem regs_increment_decrement (regs : Vector Byte 8) :
    (regs.set 7 (regs[7] - 1)).set 7 ((regs.set 7 (regs[7] - 1))[7] + 1) = regs := by
  rw [Vector.set_set, Vector.getElem_set_self, BitVec.sub_add_cancel, Vector.set_getElem_self]

/-- A POP after SP is decremented reads and zeroes the cell that PUSH stores to (43_stack R106). -/
theorem State.popAddr_after_decrement (s : State) (m : Memory) (pc : Byte) :
    State.popAddr { s with regs := s.regs.set 7 (s.regs[7] - 1), mem := m, pc := pc } = s.pushAddr :=
  Vector.getElem_set_self _

/-- Of two stores to one address the second is read there, and every other byte is as before both. -/
theorem Memory.read_write_write (m : Memory) (a v w x : Byte) :
    ((m.write a v).write a w).read x = if x = a then w else m.read x := by
  rw [Memory.read_write, Memory.read_write]
  split <;> rfl

/-- Settles O21: PUSH stores the register's value after the decrement, and that is the value the register still has when
POP reads the cell; so the POP only increments SP back and zeroes the cell. -/
theorem pushThenPopRestores : Obligations.PushThenPopRestores := by
  intro s r hr
  have hpc : s.pc + 2 + 2 = s.pc + 4 := BitVec.add_assoc s.pc 2 2
  refine ⟨_, _, exec_push_of_lt s hr, exec_pop_of_cell_eq_register hr ?_, ?_, fun x => ?_⟩
  · rw [State.popAddr_after_decrement]
    exact (Memory.read_write s.mem s.pushAddr _ s.pushAddr).trans (if_pos rfl)
  · rw [regs_increment_decrement, hpc]
  · rw [State.popAddr_after_decrement]
    exact Memory.read_write_write s.mem s.pushAddr _ 0 x

/-! ### CALL and RET -/

/-- CALL puts the address after its own two bytes in LINK and goes to the register's value (44_control_transfer R110). -/
theorem exec_call_of_lt (s : State) {r : Byte} (hr : r.toNat < 8) :
    exec (.call r) s = .next { s with link := some (s.pc + 2), pc := s.regs[r.toNat] } :=
  (withReg_of_lt hr).trans (finish_of_setsPc rfl)

/-- Settles O30: CALL and RET either raise a fault or write LINK and the PC, and neither touches memory or a register. -/
theorem callAndRetDoNotUseTheStack : Obligations.CallAndRetDoNotUseTheStack := by
  refine ⟨fun s t r h => ?_, fun s t h => ?_, fun s r hr => ⟨_, exec_call_of_lt s hr, rfl⟩⟩
  · cases exec_effect h with
    | badRegister => exact ⟨rfl, rfl⟩
    | call => exact ⟨rfl, rfl⟩
  · cases exec_effect h with
    | badRegister => exact ⟨rfl, rfl⟩
    | noLink => exact ⟨rfl, rfl⟩
    | ret => exact ⟨rfl, rfl⟩

end Sys2Proof.Machine
end

section
/-! PROOFS, 44_control_transfer (R110 to R116). The five instructions that write the PC themselves, of two nested CALLs the one
return address that is kept, and by bit 4 of the opcode byte where every step that raises no fault leaves the PC. -/

namespace Sys2Proof.Machine

open Sys2Proof

/-! ### The PC after a step -/

/-- A step that leaves no fault record ran an instruction, one with the opcode byte at the PC: an undefined opcode byte
leaves a record (60_exceptions R131). -/
theorem step_executes_of_no_fault {s t : State} (h : step s = .next t) (hf : t.fault = none) :
    ∃ i, opcodeMap i.mnemonic = s.memRead s.pc ∧ exec i s = .next t := by
  obtain ⟨-, ⟨i, hd, hi⟩ | ⟨-, rfl⟩⟩ := step_cases h
  · exact ⟨i, opcode_of_decode (s.fetchDecode_eq.symm.trans hd), hi⟩
  · simp at hf

/-- With bit 4 clear the handler leaves the PC to the loop, which advances it by `op_size + 1` (40_execution_loop R76). -/
theorem exec_pc_of_not_setsPc {i : Instr} {s t : State} (h : exec i s = .next t) (hf : t.fault = none)
    (hm : setsPc (opcodeMap i.mnemonic) = false) :
    t.pc = s.pc + BitVec.ofNat 8 ((opcodeMap i.mnemonic).toNat / 64 + 1) := by
  cases exec_effect h with
  | badRegister => simp at hf
  | noLink => simp at hf
  | call | ret | jmp | jeq | jne => exact absurd hm (by simp [Instr.mnemonic, setsPc_opcodeMap])
  | _ => exact congrArg State.pc (State.loopUpdate_of_not_setsPc _ hm)

/-- With bit 4 set the PC is a register's value (CALL, JMP, a jump taken), the old link (RET), or past the two bytes of a
jump not taken (44_control_transfer R110 to R114). -/
theorem exec_pc_of_setsPc {i : Instr} {s t : State} (h : exec i s = .next t) (hf : t.fault = none)
    (hm : setsPc (opcodeMap i.mnemonic) = true) :
    (∃ k : Fin 8, t.pc = s.regs[k]) ∨ s.link = some t.pc ∨ t.pc = s.pc + 2 := by
  cases exec_effect h with
  | badRegister => simp at hf
  | noLink => simp at hf
  | call hr => exact .inl ⟨_, rfl⟩
  | ret hl => exact .inr (.inl hl)
  | jmp hr => exact .inl ⟨_, rfl⟩
  | jeq hr =>
    split
    · exact .inl ⟨_, rfl⟩
    · exact .inr (.inr rfl)
  | jne hr =>
    split
    · exact .inr (.inr rfl)
    · exact .inl ⟨_, rfl⟩
  | _ => simp [Instr.mnemonic, setsPc_opcodeMap] at hm

/-- Settles O46: the step ran the instruction of the byte at the PC, and bit 4 of that byte says whether the loop or the
handler moved the PC. -/
theorem pcFollowsTheSetsPcBit : Obligations.PcFollowsTheSetsPcBit := by
  intro s t h hf
  obtain ⟨i, hir, hi⟩ := step_executes_of_no_fault h hf
  rw [← hir]
  exact ⟨exec_pc_of_not_setsPc hi hf, exec_pc_of_setsPc hi hf⟩

/-! ### The five instructions -/

/-- RET with a valid link goes to it and clears it (44_control_transfer R111). -/
theorem exec_ret_of_link {s : State} {a : Byte} (h : s.link = some a) :
    exec .ret s = .next { s with pc := a, link := none } := by
  calc exec .ret s
    _ = .next ((s.setPc (s.link.getD s.pc)).setLink none) := execRet_of_link h
    _ = .next ((s.setPc a).setLink none) := by rw [h, Option.getD_some]

/-- RET with no valid link takes InvalidReturn (44_control_transfer R111, 60_exceptions R133). -/
theorem exec_ret_of_no_link {s : State} (h : s.link = none) :
    exec .ret s = .next { s with fault := some { cause := .invalidReturn, pc := s.pc, ir := 0x11 } } :=
  execRet_of_no_link h

/-- Settles O24: the register byte gets past the check, and CALL has written the PC itself. -/
theorem callSavesTheLink : Obligations.CallSavesTheLink :=
  fun s _ => exec_call_of_lt s

/-- Settles O25: a valid link gets RET past its check, and RET has written the PC itself. -/
theorem retGoesToTheLink : Obligations.RetGoesToTheLink :=
  fun _ _ => exec_ret_of_link

/-- Settles O26: the register byte gets past the check, and JMP has written the PC itself. -/
theorem jmpGoesToTheRegister : Obligations.JmpGoesToTheRegister := by
  intro s r hr
  calc exec (.jmp r) s
    _ = finish .jmp (s.setPc (s.reg ⟨r.toNat, hr⟩)) := withReg_of_lt hr
    _ = .next (s.setPc (s.reg ⟨r.toNat, hr⟩)) := finish_of_setsPc rfl

/-- Settles O27: JEQ is taken when E is set. -/
theorem jeqIsTakenOnEqual : Obligations.JeqIsTakenOnEqual := by
  refine fun s r hr => ⟨fun hE => ?_, fun hE => ?_⟩
  · simp only [exec_jeq_of_lt s hr, equalSet, hE, if_true]
  · simp only [exec_jeq_of_lt s hr, equalSet, hE, Bool.false_eq_true, if_false]

/-- Settles O28: JNE is taken when E is clear, whatever the other two flags are. -/
theorem jneIsTakenOnNotEqual : Obligations.JneIsTakenOnNotEqual := by
  refine fun s r hr => ⟨fun hE => ?_, fun hE => ?_⟩
  · simp only [exec_jne_of_lt s hr, equalSet, hE, Bool.false_eq_true, if_false]
  · simp only [exec_jne_of_lt s hr, equalSet, hE, if_true]

/-! ### Nested calls -/

/-- Settles O31: each CALL overwrites LINK, so the first RET finds the second CALL's return address and clears it, and the
second RET finds no link. -/
theorem nestedCallsKeepOneLink : Obligations.NestedCallsKeepOneLink := by
  refine fun s q r hq hr => ⟨_, _, _, _, exec_call_of_lt s hq, exec_call_of_lt _ hr, exec_ret_of_link ?linked,
    exec_ret_of_no_link ?unlinked, rfl, rfl, rfl, rfl⟩
  case linked => rfl
  case unlinked => rfl

end Sys2Proof.Machine
end

section
/-! PROOFS, 60_exceptions (R130 to R142). Every instruction answers a next state, a fault being one of them, and which of
the three fault conditions holds is read off the record that a step leaves. -/

namespace Sys2Proof.Machine

open Sys2Proof

/-- Settles O11: an instruction either raises a fault, which is a next state, or has its effect (60_exceptions R142). -/
theorem everyInstructionAnswersANextState : Obligations.EveryInstructionAnswersANextState := by
  intro i s
  obtain ⟨c, hraise⟩ | hact := exec_raises_or_acts i s.link
  · exact ⟨_, hraise s fun _ => rfl⟩
  · exact ⟨_, hact s fun _ => rfl⟩

/-! ### Which fault an instruction takes -/

/-- The check on an instruction asks of each register operand byte that it gets past `withReg` (30_encoding R56). -/
theorem wellFormed_iff {i : Instr} : i.wellFormed = true ↔ ∀ b ∈ i.registerBytes, b.toNat < 8 := by
  simp [Instr.wellFormed, namesRegister, Nat.lt_succ_iff]

/-- RET has no register operand byte, so InvalidRegister is not for it (60_exceptions R132). -/
theorem wellFormed_ret : Instr.ret.wellFormed = true := rfl

/-- A decoded instruction leaves no fault record, takes InvalidRegister (code 2), or takes InvalidReturn (code 3), each
under its own condition (60_exceptions R130, R137). -/
theorem exec_fault_cases {i : Instr} {s t : State} (hs : s.fault = none) (h : exec i s = .next t) :
    (t.fault = none ∧ i.wellFormed = true ∧ ¬ (i = .ret ∧ s.link = none)) ∨
      (∃ f, t.fault = some f ∧ f.cause.code = 2 ∧ i.wellFormed = false) ∨
      (∃ f, t.fault = some f ∧ f.cause.code = 3 ∧ i = .ret ∧ s.link = none) := by
  cases exec_effect h with
  | badRegister _ hi => exact .inr (.inl ⟨_, rfl, rfl, hi⟩)
  | noLink hl => exact .inr (.inr ⟨_, rfl, rfl, rfl, hl⟩)
  | ret hl => exact .inl ⟨hs, wellFormed_ret, by simp [hl]⟩
  | _ => exact .inl ⟨by simp [hs], wellFormed_iff.mpr (by simp [Instr.registerBytes, *]), by simp⟩

/-- A byte at the PC outside OPCODE_MAP is rejected by name (30_encoding R60). -/
theorem State.fetchDecode_of_lookup_none {s : State} (h : lookupOpcode (s.fetchByte 0) = none) :
    s.fetchDecode = .error (.invalidOpcode (s.fetchByte 0)) := by
  simp only [State.fetchDecode, decode, h]

/-- Settles O36: the bytes do not decode, or they decode to an instruction in one of the three cases of
`exec_fault_cases`. The four cases exclude each other, RET being well-formed. -/
theorem stepFaultsExactlyOnTheThreeConditions : Obligations.StepFaultsExactlyOnTheThreeConditions := by
  intro s t h
  rw [← State.fetchDecode_eq]
  obtain ⟨hno, ⟨i, hd, hi⟩ | ⟨hop, rfl⟩⟩ := step_cases h
  · obtain ⟨-, -, hs⟩ := State.noStep_eq_none.mp hno
    obtain ⟨hf, hw, hr⟩ | ⟨f, hf, hc, hw⟩ | ⟨f, hf, hc, rfl, hl⟩ := exec_fault_cases hs hi
    · simpa [hd, hf, hw] using hr
    · have hne : i ≠ .ret := by rintro rfl; simp [wellFormed_ret] at hw
      simp [hd, hf, hc, hw, hne]
    · simp [hd, hf, hc, hl, wellFormed_ret]
  · simp [State.fetchDecode_of_lookup_none hop, FaultCause.code]

end Sys2Proof.Machine
end

section
/-! PROOFS, 70_reset_and_hazards (R152), 10_state (R24) and 60_exceptions (R134). What a step does to each part of the
invariant: memory, the launch phase, and the fault record, which tells of the instruction fetched. -/

namespace Sys2Proof.Machine

open Sys2Proof

/-! ### Canonical memory -/

/-- PUSH and POP store with `Memory.write`, and nothing else touches the cell list. -/
theorem exec_keeps_mem_wf {i : Instr} {s t : State} (hm : s.mem.wf) (h : exec i s = .next t) : t.mem.wf := by
  cases exec_effect h with
  | push | pop =>
    simp only [State.loopUpdate_mem, State.setReg_mem, State.memWrite_mem]
    exact Memory.wf_write hm _ _
  | _ => simpa using hm

theorem step_keeps_mem_wf {s t : State} (hm : s.mem.wf) (h : step s = .next t) : t.mem.wf := by
  obtain ⟨-, ⟨i, -, hi⟩ | ⟨-, rfl⟩⟩ := step_cases h
  · exact exec_keeps_mem_wf hm hi
  · exact hm

/-! ### The launch phase -/

theorem exec_loaded {i : Instr} {s t : State} (h : exec i s = .next t) : t.loaded = s.loaded := by
  cases exec_effect h <;> simp

/-- A step exists only after Load, which no step takes back (70_reset_and_hazards R151, R152). -/
theorem step_loaded {s t : State} (h : step s = .next t) : t.loaded = true := by
  obtain ⟨hno, hdone⟩ := step_cases h
  obtain ⟨hl, -, -⟩ := State.noStep_eq_none.mp hno
  obtain ⟨i, -, hi⟩ | ⟨-, rfl⟩ := hdone
  · rw [exec_loaded hi, hl]
  · exact hl

/-! ### The fault record -/

/-- The operand bytes of the decoded instruction are the bytes fetched after its opcode byte (30_encoding R54). -/
theorem State.operandBytes_prefix_fetched {s : State} {i : Instr} (hd : s.fetchDecode = .ok i) :
    i.operandBytes <+: [s.fetchByte 1, s.fetchByte 2] := by
  obtain ⟨-, htake⟩ := List.cons.inj (encode_of_decode hd)
  exact htake ▸ List.take_prefix _ _

/-- InvalidRegister names an operand byte of the decoded instruction, so it names the byte at PC + 1 or PC + 2
(60_exceptions R132). -/
theorem causeHolds_invalidRegister {s : State} {i : Instr} {b : Byte} {o : Operand} (ir : Byte)
    (hd : s.fetchDecode = .ok i) (hb : 8 ≤ b.toNat) (ho : i.operandBytes[if o = .a then 0 else 1]? = some b) :
    causeHolds s ir (.invalidRegister b o) := by
  obtain ⟨hlt, hget⟩ := List.getElem?_eq_some_iff.mp ho
  have hfetched := List.prefix_iff_getElem?.mp (State.operandBytes_prefix_fetched hd) _ hlt
  rw [hget] at hfetched
  cases o <;> exact ⟨hb, (Option.some.inj hfetched).symm⟩

/-- The decoded instruction keeps the fault record, or it changes nothing else and records the opcode byte fetched and a
cause that holds (60_exceptions R130, R134). -/
theorem exec_fault_or_raises {i : Instr} {s t : State} (hd : s.fetchDecode = .ok i) (h : exec i s = .next t) :
    t.fault = s.fault ∨ ∃ c, t = s.raise c (s.fetchByte 0) ∧ causeHolds s (s.fetchByte 0) c := by
  have hir : opcodeMap i.mnemonic = s.fetchByte 0 := opcode_of_decode hd
  cases exec_effect h with
  | badRegister hb _ ho => exact .inr ⟨_, by rw [hir], causeHolds_invalidRegister _ hd hb ho⟩
  | noLink hl => exact .inr ⟨.invalidReturn, by rw [← hir]; rfl, hir.symm, hl⟩
  | _ => exact .inl (by simp)

/-- A step leaves no fault record, or it changes nothing else and records the opcode byte fetched and a cause that holds
(60_exceptions R130, R134). -/
theorem step_no_fault_or_raises {s t : State} (h : step s = .next t) :
    t.fault = none ∨ ∃ c, t = s.raise c (s.fetchByte 0) ∧ causeHolds s (s.fetchByte 0) c := by
  obtain ⟨hno, ⟨i, hd, hi⟩ | ⟨hop, rfl⟩⟩ := step_cases h
  · obtain ⟨-, -, hs⟩ := State.noStep_eq_none.mp hno
    exact hs ▸ exec_fault_or_raises hd hi
  · exact .inr ⟨.invalidOpcode, rfl, hop⟩

/-- A fault leaves the PC, the fetched bytes and the link as it found them, so the record is true in the state it leaves
(60_exceptions R134). -/
theorem recordTrue_raise {s : State} {c : FaultCause} (hc : causeHolds s (s.fetchByte 0) c) :
    recordTrue (s.raise c (s.fetchByte 0)) { cause := c, pc := s.pc, ir := s.fetchByte 0 } :=
  ⟨rfl, rfl, hc⟩

/-- Every fault record a step leaves is true, whatever the state it began in. -/
theorem step_recordTrue {s t : State} (h : step s = .next t) : ∀ r ∈ t.fault, recordTrue t r := by
  obtain hnone | ⟨c, rfl, hc⟩ := step_no_fault_or_raises h
  · simp [hnone]
  · rintro _ ⟨⟩
    exact recordTrue_raise hc

/-- Settles O53: of the invariant only the canonical memory and the legal FL are carried over the step; the other three
parts hold after any step, since a step begins in a loaded core with neither HALT nor a fault record. -/
theorem stepKeepsTheInvariant : Obligations.StepKeepsTheInvariant := fun _ _ hs h =>
  { mem := step_keeps_mem_wf hs.mem h
    fl := step_keeps_legalFlags hs.fl h
    oneEnd := step_reaches_one_end h
    record := step_recordTrue h
    launch := fun hl => by simp [step_loaded h] at hl }

end Sys2Proof.Machine
end

section
/-! PROOFS, other: statements that range over several chapters (10_state R12, R21, R27, 30_encoding R58, 40_execution_loop
R70, 43_stack R105, 60_exceptions R130 to R136, 70_reset_and_hazards R150). Which opcode bytes are rejected, when a step
exists and where it leads, what a fault leaves, and which registers and which link an instruction reads and writes. -/

namespace Sys2Proof

/-! ### The opcode bytes -/

/-- Decoding rejects exactly the opcode bytes the lookup does not find. -/
theorem decode_eq_invalidOpcode_iff (ir opa opb : Byte) :
    decode ir opa opb = .error (.invalidOpcode ir) ↔ lookupOpcode ir = none := by
  obtain ⟨m, rfl, hd⟩ | ⟨hnone, hd⟩ := decode_cases ir opa opb
  · simp [hd, lookupOpcode_opcodeMap]
  · simp [hd, hnone]

/-- The lookup finds exactly the bytes OPCODE_MAP holds (30_encoding R58). -/
theorem lookupOpcode_eq_none_iff_not_mem (ir : Byte) :
    lookupOpcode ir = none ↔ ir.toNat ∉ allMnemonics.map fun m => (opcodeMap m).toNat := by
  simp [lookupOpcode_eq_none, mem_allMnemonics, BitVec.toNat_inj]

/-- Settles O4: the thirteen values are those of OPCODE_MAP, in its order. -/
theorem otherOpcodeBytesAreRejected : Obligations.OtherOpcodeBytesAreRejected :=
  fun ir opa opb => (decode_eq_invalidOpcode_iff ir opa opb).trans (lookupOpcode_eq_none_iff_not_mem ir)

/-- Settles O3: each word is the opcode byte of a row of OPCODE_MAP and the operand bytes its format uses. -/
theorem specWordsDecode : Obligations.SpecWordsDecode :=
  ⟨rfl, rfl, rfl, rfl, rfl, rfl, rfl, rfl, rfl, rfl, rfl, rfl, rfl⟩

end Sys2Proof

namespace Sys2Proof.Machine

open Sys2Proof

/-! ### When a step exists -/

/-- The phases in which a step exists, by the run state (40_execution_loop R70, 70_reset_and_hazards R151). -/
theorem State.noStep_eq_none_iff_running {s : State} :
    s.noStep = none ↔ s.loaded = true ∧ s.runState = .running := by
  unfold State.noStep
  cases s.runState <;> simp

/-- Where no step exists, the step says why. -/
theorem step_eq_fault {s : State} {f : Fault} (h : s.noStep = some f) : step s = .fault f := by
  simp only [step, h]

/-- Where a step exists it answers a next state, since fetched bytes either decode, and every instruction answers a next
state, or are rejected with a fault record (60_exceptions R131, R142). -/
theorem exists_step_of_noStep_none {s : State} (h : s.noStep = none) : ∃ t, step s = .next t := by
  cases hd : s.fetchDecode with
  | ok i => exact step_eq_exec h hd ▸ everyInstructionAnswersANextState i s
  | error e => exact ⟨_, step_eq_rejectOpcode h hd⟩

theorem exists_step_iff {s : State} : (∃ t, step s = .next t) ↔ s.loaded = true ∧ s.runState = .running :=
  .trans ⟨fun ⟨_, h⟩ => (step_cases h).1, exists_step_of_noStep_none⟩ State.noStep_eq_none_iff_running

/-- Settles O10: a step either exists, and answers a next state, or stops under the name of the phase. -/
theorem stepExistsExactlyInALoadedRunningCore : Obligations.StepExistsExactlyInALoadedRunningCore := by
  refine fun s => ⟨exists_step_iff, fun h => step_eq_fault ?_, fun h => step_eq_fault ?_,
    fun h hl => step_eq_fault ?_, fun r hr => ?_⟩
  · simp [State.noStep, h]
  · simp [State.noStep, h]
  · simp [State.noStep, h, hl]
  · cases hno : s.noStep with
    | some f => simp [step_eq_fault hno] at hr
    | none =>
      obtain ⟨t, ht⟩ := exists_step_of_noStep_none hno
      simp [ht] at hr

/-! ### Where a step and an event lead -/

/-- HLT sets HALT, and the loop advances the PC by 1 (41_control_data R85, decision D13). -/
theorem exec_hlt (s : State) : exec .hlt s = .next { s with halt := true, pc := s.pc + 1 } :=
  finish_of_not_setsPc rfl

/-- Settles O12: HLT has no operand byte, and bit 4 of its opcode byte is clear. -/
theorem hltHalts : Obligations.HltHalts := exec_hlt

/-- Settles O35: a step that leaves a fault record has raised it, and raising writes nothing but the record. -/
theorem faultsArePrecise : Obligations.FaultsArePrecise := by
  intro s t f h hf
  obtain hnone | ⟨c, rfl, hc⟩ := step_no_fault_or_raises h
  · simp [hnone] at hf
  · obtain rfl : { cause := c, pc := s.pc, ir := s.fetchByte 0 } = f := Option.some.inj hf
    exact ⟨rfl, rfl, s.fetchByte_zero, hc, rfl⟩

/-- A step that reaches HALT has executed HLT, which leaves no fault record (40_execution_loop R70). -/
theorem step_halted_iff {s t : State} (h : step s = .next t) : t.runState = .halted ↔ s.fetchDecode = .ok .hlt := by
  obtain ⟨hno, -⟩ := step_cases h
  obtain ⟨-, hhalt, hfault⟩ := State.noStep_eq_none.mp hno
  rw [State.runState_eq_halted_iff]
  constructor
  · rintro ⟨-, ht⟩
    exact (step_halt h).resolve_right (by simp [ht, hhalt])
  · intro hd
    obtain rfl := Host.Outcome.next.inj ((exec_hlt s).symm.trans ((step_eq_exec hno hd).symm.trans h))
    simp [hfault]

/-- A step that reaches Faulted has changed nothing but the fault record (60_exceptions R134). -/
theorem step_faulted_iff {s t : State} (h : step s = .next t) :
    t.runState = .faulted ↔ ∃ f, t = { s with fault := some f } := by
  rw [State.runState_eq_faulted_iff, Option.isSome_iff_exists]
  refine exists_congr fun f => ⟨fun hf => (faultsArePrecise s t f h hf).1, ?_⟩
  rintro rfl
  rfl

/-- Settles O52: a step exists in Running only, and its two ends are those of `step_halted_iff` and `step_faulted_iff`. -/
theorem runStateTransitions : Obligations.RunStateTransitions :=
  fun _ t h => ⟨(exists_step_iff.mp ⟨t, h⟩).2, step_halted_iff h, step_faulted_iff h⟩

/-- Settles O51: a core that has its image refuses Load, and one that is not Running has no step. -/
theorem onlyResetLeavesHaltedAndFaulted : Obligations.OnlyResetLeavesHaltedAndFaulted := by
  intro e s t hl hr he
  cases e with
  | reset =>
    obtain rfl : s.resetEvent = t := Host.Outcome.next.inj he
    exact ⟨rfl, rfl⟩
  | load image => simp [event_load_of_loaded hl] at he
  | step => exact absurd (exists_step_iff.mp ⟨t, he⟩).2 hr

/-- Settles O48: a reset keeps memory and takes the image away, so no step exists before the next Load. -/
theorem resetFromAnyState : Obligations.ResetFromAnyState :=
  fun _ => ⟨_, rfl, rfl, fun _ => rfl, rfl, step_eq_fault rfl⟩

/-- Settles O55: the reset state has the reset values and an empty memory, which is canonical. -/
theorem resetSatisfiesTheInvariant : Obligations.ResetSatisfiesTheInvariant :=
  .of_reset_values State.reset_mem_wf false

/-! ### The faults of an instruction -/

/-- Settles O32: the one register operand is checked before any effect. -/
theorem badRegisterByteFaults : Obligations.BadRegisterByteFaults :=
  fun _ _ _ h => ⟨withReg_of_ge h, withReg_of_ge h, withReg_of_ge h, withReg_of_ge h, withReg_of_ge h, withReg_of_ge h,
    withReg_of_ge h, withReg_of_ge h⟩

/-- An instruction on two registers reports operand b where operand a passes its check (60_exceptions R136, D18). -/
theorem withRegs_of_lt_of_ge {m : Mnemonic} {a b : Byte} {s : State} {k : RegIndex → RegIndex → Result}
    (ha : a.toNat < 8) (hb : 8 ≤ b.toNat) :
    (withReg m .a a s fun i => withReg m .b b s (k i)) = .next (s.raise (.invalidRegister b .b) (opcodeMap m)) :=
  (withReg_of_lt ha).trans (withReg_of_ge hb)

/-- Settles O33: operand a is checked before operand b, and both before any effect. -/
theorem badRegisterPairFaults : Obligations.BadRegisterPairFaults :=
  fun _ _ _ => ⟨fun ha => ⟨withReg_of_ge ha, withReg_of_ge ha, withReg_of_ge ha⟩,
    fun ha hb => ⟨withRegs_of_lt_of_ge ha hb, withRegs_of_lt_of_ge ha hb, withRegs_of_lt_of_ge ha hb⟩⟩

/-- Settles O34: RET checks the link before any effect. -/
theorem retWithoutLinkFaults : Obligations.RetWithoutLinkFaults := fun _ => exec_ret_of_no_link

/-! ### LINK -/

theorem exec_link_of_ne_call_ret {i : Instr} {s t : State} (hret : i ≠ .ret) (hcall : ∀ r, i ≠ .call r)
    (h : exec i s = .next t) : t.link = s.link := by
  cases exec_effect h with
  | noLink | ret => exact absurd rfl hret
  | call => exact absurd rfl (hcall _)
  | _ => simp

/-- Only RET reads LINK. -/
theorem exec_other_link {i : Instr} {s t : State} (l : Option Byte) (hret : i ≠ .ret) (h : exec i s = .next t) :
    ∃ u, exec i { s with link := l } = .next u ∧ { u with link := t.link } = t := by
  refine exec_related (fun t u => { u with link := t.link } = t) h (fun hi => absurd hi hret) (fun _ _ => rfl) ?_
  cases i with
  | ret => exact absurd rfl hret
  | _ => rfl

/-- Settles O41: CALL and RET hold the effects that write LINK, and of all effects only RET's reads it. -/
theorem linkBelongsToCallAndRet : Obligations.LinkBelongsToCallAndRet :=
  ⟨fun _ _ _ => exec_link_of_ne_call_ret, fun _ _ _ l => exec_other_link l⟩

/-! ### PUSH of one register, then POP of another -/

/-- Incrementing SP after decrementing it gives back the register file but for a register other than R7 that was written
in between. -/
theorem regs_write_between_decrement_and_increment (regs : Vector Byte 8) (v : Byte) {n : Nat} (hn : n < 7) :
    ((regs.set 7 (regs[7] - 1)).set n v).set 7 (((regs.set 7 (regs[7] - 1)).set n v)[7] + 1) = regs.set n v := by
  rw [Vector.getElem_set_ne _ _ hn.ne, Vector.set_comm _ _ hn.ne, regs_increment_decrement]

/-- POP after PUSH reads the byte pushed, which for a register other than R7 is its value before the PUSH. -/
theorem memRead_after_push (s : State) {n : Nat} (hn : n < 7) :
    (s.mem.write s.pushAddr (s.regs.set 7 (s.regs[7] - 1))[n]).read s.pushAddr = s.regs[n] := by
  rw [Memory.read_write, if_pos rfl, Vector.getElem_set_ne _ _ hn.ne']

/-- Settles O22: POP reads the cell PUSH stored to, where `R[a]` stands, and writes it to `R[b]` between the decrement and
the increment of SP. -/
theorem pushThenPopCopies : Obligations.PushThenPopCopies := by
  intro s a b ha hb
  have hpc : s.pc + 2 + 2 = s.pc + 4 := BitVec.add_assoc s.pc 2 2
  refine ⟨_, _, exec_push_of_lt s (by omega), exec_pop_of_lt _ (by omega), ?_, fun x => ?_⟩
  · rw [State.popAddr_after_decrement, hpc, regs_write_between_decrement_and_increment _ _ hb]
    simp only [State.memRead, memRead_after_push s ha]
  · rw [State.popAddr_after_decrement]
    exact Memory.read_write_write s.mem s.pushAddr _ 0 x

/-! ### The registers an instruction writes -/

theorem State.reg_setReg_of_ne (s : State) {i j : RegIndex} (v : Byte) (h : j.val ≠ i.val) :
    (s.setReg i v).reg j = s.reg j := by
  rw [State.reg_setReg, if_neg (Fin.ne_of_val_ne h)]

/-- The loop's PC update changes no register, so what an effect before it leaves in one is what the step leaves. -/
theorem State.loopUpdate_setReg_reg_of_ne (s : State) {i j : RegIndex} (v ir : Byte) (h : j.val ≠ i.val) :
    ((s.setReg i v).loopUpdate ir).reg j = s.reg j := by
  rw [State.loopUpdate_reg, State.reg_setReg_of_ne s v h]

/-- Settles O44: the effects of LDI, MUL, ADD, PUSH and POP hold the only register writes. -/
theorem registerFrame : Obligations.RegisterFrame := by
  intro i s t k h hldi halu hpush hpop
  change t.reg k = s.reg k
  cases exec_effect h with
  | ldi => exact s.loopUpdate_setReg_reg_of_ne _ _ (hldi _ _ rfl)
  | mul => exact s.loopUpdate_setReg_reg_of_ne _ _ (halu _ _ (.inl rfl))
  | add => exact s.loopUpdate_setReg_reg_of_ne _ _ (halu _ _ (.inr rfl))
  | push =>
    rw [State.loopUpdate_reg, State.memWrite_reg]
    exact s.reg_setReg_of_ne _ (Fin.val_ne_of_ne (hpush _ rfl))
  | pop =>
    obtain ⟨hkr, hk7⟩ := hpop _ rfl
    exact (State.loopUpdate_setReg_reg_of_ne _ _ _ (Fin.val_ne_of_ne hk7)).trans (s.reg_setReg_of_ne _ hkr)
  | _ => simp

/-! ### The registers an instruction reads -/

/-- Writes to two registers may be exchanged. -/
theorem State.setReg_comm (s : State) {i j : RegIndex} (v w : Byte) (h : j.val ≠ i.val) :
    (s.setReg i v).setReg j w = (s.setReg j w).setReg i v := by
  simp only [State.setReg, Vector.set_comm _ _ h.symm]

/-- A store and a register write may be exchanged. -/
theorem State.memWrite_setReg (s : State) (i : RegIndex) (v a b : Byte) :
    (s.setReg i v).memWrite a b = (s.memWrite a b).setReg i v := rfl

theorem effectOf_fault (i : Instr) (s : State) : (effectOf i s).fault = s.fault := by
  cases i <;> simp [effectOf]

/-- An instruction with a register byte above 7 raises one and the same fault in every state (60_exceptions R132). -/
theorem exec_raises_of_not_wellFormed {i : Instr} (hw : i.wellFormed = false) :
    ∃ c, ∀ s, exec i s = .next (s.raise c (opcodeMap i.mnemonic)) := by
  have hret : i ≠ .ret := by rintro rfl; simp [wellFormed_ret] at hw
  refine (exec_raises_or_acts_of_ne_ret hret).resolve_right fun hact => ?_
  have hnone : (effectOf i State.reset).fault = none := effectOf_fault i State.reset
  obtain ⟨-, hwf, -⟩ | ⟨f, hf, -⟩ | ⟨f, hf, -⟩ := exec_fault_cases rfl (hact State.reset)
  · simp [hw] at hwf
  · simp [hnone] at hf
  · simp [hnone] at hf

/-- A write to a register that no register byte names, and not to R7 under PUSH and POP, may be done before the
instruction's effect or after it. -/
theorem effectOf_setReg {i : Instr} {k : RegIndex} (s : State) (v : Byte)
    (hk : ∀ b ∈ i.registerBytes, (lowRegister b).val ≠ k.val)
    (hsp : ∀ r, i = .push r ∨ i = .pop r → Config.spIndex.val ≠ k.val) :
    effectOf i (s.setReg k v) = (effectOf i s).setReg k v := by
  have hread : ∀ b ∈ i.registerBytes, ∀ s : State, (s.setReg k v).reg (lowRegister b) = s.reg (lowRegister b) :=
    fun b hb s => s.reg_setReg_of_ne v (hk b hb)
  have hwrite : ∀ b ∈ i.registerBytes, ∀ (s : State) (w : Byte),
      (s.setReg k v).setReg (lowRegister b) w = (s.setReg (lowRegister b) w).setReg k v :=
    fun b hb s w => s.setReg_comm v w (hk b hb)
  cases i with
  | hlt | ret => rfl
  | ldi | mul | add | cmp | prn | call | jmp | jeq | jne =>
    simp only [Instr.registerBytes, List.forall_mem_cons] at hread hwrite
    simp only [effectOf, hread, hwrite]
    rfl
  | push r =>
    have hsp' := hsp r (.inl rfl)
    simp only [Instr.registerBytes, List.forall_mem_cons] at hread
    simp only [effectOf, State.pushAddr, State.reg_setReg_of_ne _ v hsp', State.setReg_comm _ v _ hsp', hread]
    rfl
  | pop r =>
    have hsp' := hsp r (.inr rfl)
    simp only [Instr.registerBytes, List.forall_mem_cons] at hwrite
    simp only [effectOf, State.popAddr, State.setReg_memRead, State.reg_setReg_of_ne _ v hsp', hwrite,
      State.memWrite_setReg, State.setReg_comm _ v _ hsp']
    rfl

/-- An instruction's answer with another value in a register it does not use (10_state R12, R27). -/
theorem exec_setReg {i : Instr} {s t : State} {k : RegIndex} (v : Byte) (h : exec i s = .next t)
    (hk : ∀ b ∈ i.registerBytes, b.toNat ≠ k.val)
    (hsp : ∀ r, i = .push r ∨ i = .pop r → Config.spIndex.val ≠ k.val) :
    exec i (s.setReg k v) = .next (t.setReg k v) := by
  cases hw : i.wellFormed with
  | false =>
    obtain ⟨c, hc⟩ := exec_raises_of_not_wellFormed hw
    obtain rfl := Host.Outcome.next.inj ((hc s).symm.trans h)
    exact hc _
  | true =>
    have hlow : ∀ b ∈ i.registerBytes, (lowRegister b).val ≠ k.val := fun b hb => by
      rw [lowRegister_of_lt (wellFormed_iff.mp hw b hb)]
      exact hk b hb
    obtain ⟨u, hu, rfl⟩ := exec_related (s' := s.setReg k v) (fun t u => u = t.setReg k v) h
      (fun _ => rfl) (fun _ _ => rfl) (effectOf_setReg s v hlow hsp)
    exact hu

/-- Settles O45: a bad register byte faults whatever the registers hold, and the effect of a well-formed instruction
reads and writes only the registers its bytes name, and R7 under PUSH and POP. -/
theorem otherRegistersDoNotMatter : Obligations.OtherRegistersDoNotMatter :=
  fun _ _ _ _ v h hk hsp => exec_setReg v h hk fun r hr => Fin.val_ne_of_ne (hsp r hr).symm

end Sys2Proof.Machine
end
